-- ==== Sys2Proof/Word.lean ====
section
/-! DEFINITION. The word types of the codec (00_scope.md R11). -/

namespace Sys2Proof

/-- R11: "every byte is 8 bits, unsigned, 0..255". -/
abbrev Byte := BitVec 8

/-- R11, R24, R28, R170: the 32-bit word of CMD, STATUS and a binary32 bit pattern. -/
abbrev Word := BitVec 32

/-- R13: a byte sequence; index 0 is the first byte transmitted. -/
abbrev Bytes := List Byte

end Sys2Proof
end

