-- ==== Sys2Proof/Syntax.lean ====
section
/-! DEFINITION. The nine commands (30_encoding.md R73, R75) and the four fields of a command word (R70). -/

namespace Sys2Proof

/-- R73: "exactly the nine commands of rule R75". Only MSG.BUILD has operands in the command word (R72); every other
operand is a whole request register. -/
inductive Instr
  /-- FRAME.ENC (R102). -/
  | frameEnc
  /-- FRAME.DEC (R106). -/
  | frameDec
  /-- FRAME.SPLIT (R109). -/
  | frameSplit
  /-- CRC8 (R134). -/
  | crc8
  /-- MSG.BUILD dev, pkt (R142). -/
  | msgBuild (dev pkt : Byte)
  /-- MSG.PARSE (R145). -/
  | msgParse
  /-- FLT.ENC (R173). -/
  | fltEnc
  /-- FLT.DEC (R175). -/
  | fltDec
  /-- STREAM.FEED (R190). -/
  | streamFeed
deriving DecidableEq, Repr

/-- R70: the four 8-bit fields of a command word. -/
structure CmdFields where
  /-- Bits [7:0]. -/
  op : Byte
  /-- Bits [15:8]. -/
  dev : Byte
  /-- Bits [23:16]. -/
  pkt : Byte
  /-- Bits [31:24]. -/
  rsv : Byte
deriving DecidableEq, Repr

end Sys2Proof
end

