-- ==== Sys2Proof/Decode.lean ====
section
/-! DEFINITION. Decoding of a command word, total and rejecting by name (30_encoding.md R70 to R78), the encoder, and
the assembler's spelling (R79). -/

namespace Sys2Proof

/-- Why a word is no command (R77). STATUS records none of this: all three complete with the one code IllegalCommand
(R203). -/
inductive DecodeError
  /-- "any word with `RSV != 0`". -/
  | reservedFieldNotZero
  /-- "every `OP` value not in rule R75". -/
  | unassignedOpcode
  /-- "any word with `OP` other than `0x11` and `DEV != 0` or `PKT != 0`". -/
  | operandFieldNotZero
deriving DecidableEq, Repr

/-- R70, R72: the fields of a command word. -/
def fieldsOf (w : Word) : CmdFields :=
  { op := w.extractLsb' 0 8, dev := w.extractLsb' 8 8, pkt := w.extractLsb' 16 8, rsv := w.extractLsb' 24 8 }

/-- R70: the command word of four fields. -/
def wordOf (f : CmdFields) : Word :=
  f.op.setWidth 32 ||| f.dev.setWidth 32 <<< 8 ||| f.pkt.setWidth 32 <<< 16 ||| f.rsv.setWidth 32 <<< 24

/-- R75: the row whose opcode is `op`, were all its fields legal. -/
def rowOf (f : CmdFields) : Option Instr :=
  if f.op = 0x01#8 then some .frameEnc
  else if f.op = 0x02#8 then some .frameDec
  else if f.op = 0x03#8 then some .frameSplit
  else if f.op = 0x10#8 then some .crc8
  else if f.op = 0x11#8 then some (.msgBuild f.dev f.pkt)
  else if f.op = 0x12#8 then some .msgParse
  else if f.op = 0x20#8 then some .fltEnc
  else if f.op = 0x21#8 then some .fltDec
  else if f.op = 0x30#8 then some .streamFeed
  else none

/-- R76, R77: "The decoder is total: every 32-bit word is either one command or illegal." -/
def decode (w : Word) : Except DecodeError Instr :=
  let f := fieldsOf w
  if f.rsv ≠ 0x00#8 then .error .reservedFieldNotZero
  else
    match rowOf f with
    | none => .error .unassignedOpcode
    | some i =>
      if f.op ≠ 0x11#8 ∧ (f.dev ≠ 0x00#8 ∨ f.pkt ≠ 0x00#8) then .error .operandFieldNotZero else .ok i

/-- R75: the opcode of a command. -/
def opcode : Instr → Byte
  | .frameEnc => 0x01#8
  | .frameDec => 0x02#8
  | .frameSplit => 0x03#8
  | .crc8 => 0x10#8
  | .msgBuild _ _ => 0x11#8
  | .msgParse => 0x12#8
  | .fltEnc => 0x20#8
  | .fltDec => 0x21#8
  | .streamFeed => 0x30#8

/-- R72, R75: the fields of a command's word. -/
def fieldsFor (i : Instr) : CmdFields :=
  match i with
  | .msgBuild dev pkt => { op := opcode i, dev := dev, pkt := pkt, rsv := 0x00#8 }
  | .frameEnc | .frameDec | .frameSplit | .crc8 | .msgParse | .fltEnc | .fltDec | .streamFeed =>
    { op := opcode i, dev := 0x00#8, pkt := 0x00#8, rsv := 0x00#8 }

/-- R75, R79: the word of a command. -/
def encode (i : Instr) : Word := wordOf (fieldsFor i)

/-- R75: a command's mnemonic. -/
def mnemonic : Instr → String
  | .frameEnc => "FRAME.ENC"
  | .frameDec => "FRAME.DEC"
  | .frameSplit => "FRAME.SPLIT"
  | .crc8 => "CRC8"
  | .msgBuild _ _ => "MSG.BUILD"
  | .msgParse => "MSG.PARSE"
  | .fltEnc => "FLT.ENC"
  | .fltDec => "FLT.DEC"
  | .streamFeed => "STREAM.FEED"

/-- R79: a command line, MSG.BUILD's two operands as decimal literals (log 16). -/
def assemblerText (i : Instr) : String :=
  match i with
  | .msgBuild dev pkt => mnemonic i ++ " dev=" ++ toString dev.toNat ++ ", pkt=" ++ toString pkt.toNat
  | .frameEnc | .frameDec | .frameSplit | .crc8 | .msgParse | .fltEnc | .fltDec | .streamFeed => mnemonic i

/-- The host's door: the command read from a table word, whose bit 0 is CMD's bit 0 (R56: CMD is accessed whole). A
command is one 32-bit word (R70), so a number that 32 bits do not hold is none. -/
def decodeTableWord (nbits w : Nat) : Option Instr :=
  let v := w % 2 ^ nbits
  if v < 2 ^ 32 then (decode (BitVec.ofNat 32 v)).toOption else none

end Sys2Proof
end

