-- ==== Sys2Proof/Config.lean ====
section
/-! DEFINITION. The implementation parameters of 00_scope.md R9, and the constraints of R10. -/

namespace Sys2Proof

/-- FLOAT_ORDER (R9, R172; 93_implementation_defined.md I4). PRESUMED: the spec names the alternative to
little-endian only as what must not be assumed; `bigEndian` is its textbook meaning (log 7). -/
inductive FloatOrder
  | littleEndian
  | bigEndian
deriving DecidableEq, Repr

/-- The parameters of R9 that are OPEN (MAX_IN) or that 93_implementation_defined.md I2 to I4 calls parameters with
a decided value. The other rows of R9 are the constants below. N_INST is the length of a platform's list of
instances (Machine/Platform.lean). -/
structure Config where
  /-- ESC. -/
  esc : Byte
  /-- MASK. -/
  mask : Byte
  /-- CRC_INIT, the initial register value. -/
  crcInit : Byte
  /-- CRC_REFLECT, input and output reflected. -/
  crcReflect : Bool
  /-- FLOAT_ORDER. -/
  floatOrder : FloatOrder
  /-- MAX_IN; `none` is the reference value "unbounded". -/
  maxIn : Option Nat
deriving DecidableEq, Repr

namespace Config

/-- DELIM (R9). -/
def delim : Byte := 0x00#8
/-- CRC_POLY (R9): the generator 0x14D without its implicit top bit. -/
def crcPoly : Byte := 0x4D#8
/-- CRC_XOROUT (R9). -/
def crcXorOut : Byte := 0xFF#8
/-- TRAILER_LEN (R9). -/
def trailerLen : Nat := 4
/-- MAX_TOTAL_LENGTH (R9): "the trailer length field is a single byte". -/
def maxTotalLength : Nat := 255
/-- MAX_PAYLOAD (R9): MAX_TOTAL_LENGTH - TRAILER_LEN. -/
def maxPayload : Nat := maxTotalLength - trailerLen

/-- The values of R9, with MAX_IN at its reference value "unbounded" (log 6; log 15 for those that are the spec's own
decisions). -/
def reference : Config :=
  { esc := 0x7D#8, mask := 0x20#8, crcInit := 0xFF#8, crcReflect := true, floatOrder := .littleEndian, maxIn := none }

/-- R10: "`ESC != DELIM`, `MASK != 0x00`, `MASK != ESC`". -/
abbrev Legal (c : Config) : Prop :=
  c.esc ≠ delim ∧ c.mask ≠ 0x00#8 ∧ c.mask ≠ c.esc

/-- R9: every parameter but the OPEN one is fixed for this hardware. -/
abbrev IsHardware (c : Config) : Prop :=
  c = { reference with maxIn := c.maxIn }

end Config

end Sys2Proof
end

