-- ==== Sys2Proof/Machine/State.lean ====
section
/-! DEFINITION. The state of one codec instance and of the host that drives it (10_state.md), as plain data, its value
at reset, and the reasons a step can stop. -/

namespace Sys2Proof.Machine

/-- R201: the completion codes by name. Their numbers are `Code.num` (Flags.lean); 9..15 are "never written". -/
inductive Code
  | ok
  | framingError
  | tooShort
  | lengthMismatch
  | checksumMismatch
  | payloadTooLarge
  | invalidLength
  | illegalCommand
  | capacityExceeded
deriving DecidableEq, Repr

/-- R35: an entry of RESULTS, `{code: 4 bits, dev: u8, pkt: u8, payload: byte sequence}`. -/
structure ResultEntry where
  code : BitVec 4
  dev : Byte
  pkt : Byte
  payload : Bytes
deriving DecidableEq, Repr

/-- The request registers, which the host writes and the codec reads (R24 to R27). -/
structure Requests where
  /-- CMD (R24): the last word the host wrote. -/
  cmd : Word
  /-- IN (R25). -/
  inp : Bytes
  /-- IN_W (R26). -/
  inW : List Word
  /-- REM_IN (R27). -/
  remIn : Bytes
deriving DecidableEq, Repr

/-- The response registers but STATUS, which the codec writes and the host reads (R29 to R35). -/
structure Responses where
  /-- OUT (R29). -/
  out : Bytes
  /-- OUT_W (R30). -/
  outW : List Word
  /-- FRAMES (R31). -/
  frames : List Bytes
  /-- REM_OUT (R32). -/
  remOut : Bytes
  /-- RES_DEV (R33). -/
  resDev : Byte
  /-- RES_PKT (R33). -/
  resPkt : Byte
  /-- RES_CRC (R34). -/
  resCrc : Byte
  /-- RESULTS (R35). -/
  results : List ResultEntry
deriving DecidableEq, Repr

/-- The sequence registers (R50), whose elements a host may also read singly (R51). -/
inductive SeqReg
  | inp
  | inW
  | remIn
  | out
  | outW
  | frames
  | remOut
  | results
deriving DecidableEq, Repr

/-- What a host can read (R36): every register of R24 to R35, and each sequence register's length (R25, R26, R29, R31,
R35; log 13 for the lengths the spec does not name). -/
inductive Reg
  | cmd
  | status
  | resDev
  | resPkt
  | resCrc
  | seq (r : SeqReg)
  | len (r : SeqReg)
deriving DecidableEq, Repr

/-- The registers that are read-only to the host (R36). -/
inductive ReadOnlyReg
  | status
  | out
  | outW
  | frames
  | remOut
  | resDev
  | resPkt
  | resCrc
  | results
deriving DecidableEq, Repr

/-- What a host access carries: a register's content, or a length (a natural number, R11). -/
inductive RegValue
  | word (w : Word)
  | byte (b : Byte)
  | bytes (s : Bytes)
  | words (s : List Word)
  | frames (s : List Bytes)
  | results (s : List ResultEntry)
  | count (n : Nat)
deriving DecidableEq, Repr

/-- The host's actions (R80, R218): its writes, its reads and its reset of the codec. A command line of a program is
`writeCmd` of the command's word (R71). -/
inductive HostAction
  /-- WRITE CMD, w (R71): stores the word and issues the command it encodes. -/
  | writeCmd (w : Word)
  /-- LOAD IN, s. -/
  | loadIn (s : Bytes)
  /-- LOAD IN_W, s. -/
  | loadInW (s : List Word)
  /-- LOAD REM_IN, s. -/
  | loadRemIn (s : Bytes)
  /-- A host write to a read-only register (R36). -/
  | writeReadOnly (r : ReadOnlyReg) (v : RegValue)
  /-- READ r, whole (R51). -/
  | read (r : Reg)
  /-- A read of the n elements of r at indices i, i+1, ... (R51, `MemRead`). -/
  | readElems (r : SeqReg) (i n : Nat)
  /-- COPY REM_OUT -> REM_IN. -/
  | copyRem
  /-- Reset of the codec (R230, R234). -/
  | reset
deriving DecidableEq, Repr

/-- One codec instance (R23), its parameters, and the host that drives it. -/
structure State where
  /-- The parameters (R9): configuration, never written by a step (R23, R232; log 6). -/
  cfg : Config
  /-- The request registers. -/
  req : Requests
  /-- STATUS (R28). -/
  status : Word
  /-- The other response registers. -/
  resp : Responses
  /-- The model's own (log 2): the host's pending actions, oldest first. -/
  todo : List HostAction
  /-- The model's own (log 5): what the host's READ actions returned, oldest first. -/
  seen : List RegValue
deriving DecidableEq, Repr

/-- Why the machine stops with a fault. The codec itself never does: "The codec has no trap" (R200). -/
inductive Fault
  /-- Raised by `platformStep` (Platform.lean) alone, where the schedule names an instance that the platform does not hold. Safe:
  the model stops (log 12). -/
  | noSuchInstance
deriving DecidableEq, Repr

/-- Why an instruction is refused. -/
inductive Refusal
  /-- Raised by a refused arm of `exec`, for a command without a meaning; no arm is refused. Safe: the model stops. -/
  | notModelled (mnemonic : String)
deriving DecidableEq, Repr

/-- R42, the request registers' rows. -/
def Requests.atReset : Requests := { cmd := 0x00000000#32, inp := [], inW := [], remIn := [] }

/-- R42, the response registers' rows (STATUS excepted); R38: what a command's start sets them to. -/
def Responses.cleared : Responses :=
  { out := [], outW := [], frames := [], remOut := [], resDev := 0x00#8, resPkt := 0x00#8, resCrc := 0x00#8,
    results := [] }

/-- R42: "After reset every register holds the value in this table", with the parameters of R9 and a host that has not
acted yet. No program stands in it: the host's actions come from outside (R21, R231; log 4). -/
def State.reset : State :=
  { cfg := Config.reference, req := Requests.atReset, status := 0x00000000#32, resp := Responses.cleared,
    todo := [], seen := [] }

end Sys2Proof.Machine
end

