-- ==== Sys2Proof/Machine/Flags.lean ====
section
/-! DEFINITION. The STATUS word: its fields and the completion codes' numbers (10_state.md R28, R39; 60_exceptions.md
R201). The codec has no arithmetic flag (R39). -/

namespace Sys2Proof.Machine

/-- R201: the number of each completion code. -/
def Code.num : Code → BitVec 4
  | .ok => 0#4
  | .framingError => 1#4
  | .tooShort => 2#4
  | .lengthMismatch => 3#4
  | .checksumMismatch => 4#4
  | .payloadTooLarge => 5#4
  | .invalidLength => 6#4
  | .illegalCommand => 7#4
  | .capacityExceeded => 8#4

/-- R28: CODE = bits [3:0]. -/
def codeOf (status : Word) : BitVec 4 := status.extractLsb' 0 4

/-- R28: REM_VALID = bit [4]. -/
def remValidOf (status : Word) : Bool := status.getLsbD 4

/-- R28: VALID = bit [5]. -/
def validOf (status : Word) : Bool := status.getLsbD 5

/-- R28: bits [31:6], which "read as zero". -/
def reservedOf (status : Word) : BitVec 26 := status.extractLsb' 6 26

/-- R28, R39: the STATUS a completed command writes: VALID = 1, REM_VALID and CODE. -/
def statusWord (code : Code) (remValid : Bool) : Word :=
  (0#26 ++ 1#1 ++ BitVec.ofBool remValid ++ code.num : BitVec 32)

end Sys2Proof.Machine
end

