-- ==== Sys2Proof/Machine/Operands.lean ====
section
/-! DEFINITION. The operand forms of the commands: the request registers each reads (10_state.md R36), their sizes for
the capacity check (20_memory.md R59), and the indexing notation of 00_scope.md R13. -/

namespace Sys2Proof.Machine

/-- The input of STREAM.FEED (R190): `REM_IN ++ IN`. -/
def State.feedInput (s : State) : Bytes := s.req.remIn ++ s.req.inp

/-- R59: the input size of a command that reads IN. -/
def State.inSize (s : State) : Nat := s.req.inp.length

/-- R59: the input size of FLT.ENC, `4 * len(IN_W)`. -/
def State.inWSize (s : State) : Nat := 4 * s.req.inW.length

/-- R59: the input size of STREAM.FEED, `len(REM_IN) + len(IN)`. -/
def State.feedSize (s : State) : Nat := s.req.remIn.length + s.req.inp.length

/-- R59: "A command whose input size exceeds the parameter `MAX_IN`"; never with `MAX_IN` unbounded. -/
def exceedsCapacity (c : Config) (size : Nat) : Bool :=
  match c.maxIn with
  | none => false
  | some bound => decide (bound < size)

/-- R13: `s[-k]`. Its uses stand behind a check that `1 <= k <= len(s)`, so the 0 is never read. -/
def fromEnd (s : Bytes) (k : Nat) : Byte := s.getD (s.length - k) 0x00#8

/-- R13: `s[:-k]`. -/
def upToEnd (s : Bytes) (k : Nat) : Bytes := s.take (s.length - k)

/-- R13: `s[i:i+n]` (R14's `MemRead`): the elements that stand at those indices (log 9 for indices past the end). -/
def slice {α : Type} (s : List α) (i n : Nat) : List α := (s.drop i).take n

end Sys2Proof.Machine
end

