-- ==== Sys2Proof/Machine/Ops.lean ====
section
/-! DEFINITION. The operations every command and every host access goes through: clearing the response registers,
completing with a code, running a command's body, and the host's reads, writes and reset. The codec has no exception to
take (60_exceptions.md R200, R209); completing with a code other than OK (R205) stands in its place. -/

namespace Sys2Proof.Machine

/-- R38: "At the start of every command, before any check, the codec sets every response register (`STATUS` excepted) to
its reset value of rule R42". -/
def State.clearResponses (s : State) : State := { s with resp := Responses.cleared }

/-- R205: completing with a code other than OK: every response register cleared, STATUS with the code, VALID = 1,
REM_VALID = 0. -/
def State.fail (c : Code) (s : State) : State :=
  { s with resp := Responses.cleared, status := statusWord c false }

/-- A command's successful completion: the response registers its rule gives, and STATUS with CODE = OK. -/
def State.succeed (r : Responses) (remValid : Bool) (s : State) : State :=
  { s with resp := r, status := statusWord .ok remValid }

/-- R83: the order of every decoded command: clear the response registers, check the capacity, run the command's own
pseudocode, write STATUS. The body answers the response registers and REM_VALID, or the code it raises; it starts from
cleared response registers. -/
def runCommand (size : Nat) (body : State → Except Code (Responses × Bool)) (s : State) :
    Host.Outcome State Fault Refusal :=
  let s := s.clearResponses
  if exceedsCapacity s.cfg size then .next (s.fail .capacityExceeded)
  else
    match body s with
    | .error c => .next (s.fail c)
    | .ok (r, remValid) => .next (s.succeed r remValid)

/-- R76, R205: an illegal word completes with IllegalCommand, "every response register cleared" and "no other effect".
R38 clears before decoding (90_conflicts.md C9). -/
def illegalCommand (s : State) : Host.Outcome State Fault Refusal :=
  .next (s.clearResponses.fail .illegalCommand)

/-- R230: reset of the registers, "whatever its value before". R232: no parameter changes. What the host has still to do
and what it has read are the host's, not the codec's (R234; log 11). -/
def State.resetRegisters (s : State) : State :=
  { s with req := Requests.atReset, status := 0x00000000#32, resp := Responses.cleared }

/-- R51: "a host read returns the entire content and length" of a sequence register. -/
def State.readSeq (s : State) : SeqReg → RegValue
  | .inp => .bytes s.req.inp
  | .inW => .words s.req.inW
  | .remIn => .bytes s.req.remIn
  | .out => .bytes s.resp.out
  | .outW => .words s.resp.outW
  | .frames => .frames s.resp.frames
  | .remOut => .bytes s.resp.remOut
  | .results => .results s.resp.results

/-- The length of a sequence register (IN_LEN, IN_W_LEN, OUT_LEN, FRAME_COUNT, RESULT_COUNT: R25, R26, R29, R31, R35). -/
def State.readLen (s : State) : SeqReg → Nat
  | .inp => s.req.inp.length
  | .inW => s.req.inW.length
  | .remIn => s.req.remIn.length
  | .out => s.resp.out.length
  | .outW => s.resp.outW.length
  | .frames => s.resp.frames.length
  | .remOut => s.resp.remOut.length
  | .results => s.resp.results.length

/-- A host read (R36, R51). -/
def State.readReg (s : State) : Reg → RegValue
  | .cmd => .word s.req.cmd
  | .status => .word s.status
  | .resDev => .byte s.resp.resDev
  | .resPkt => .byte s.resp.resPkt
  | .resCrc => .byte s.resp.resCrc
  | .seq r => s.readSeq r
  | .len r => .count (s.readLen r)

/-- R51: a host read of single elements "returns what the whole read would contain at those indices". -/
def State.readElems (s : State) (r : SeqReg) (i n : Nat) : RegValue :=
  match s.readSeq r with
  | .bytes v => .bytes (slice v i n)
  | .words v => .words (slice v i n)
  | .frames v => .frames (slice v i n)
  | .results v => .results (slice v i n)
  | .word w => .word w
  | .byte b => .byte b
  | .count n => .count n

/-- A read delivers its value to the host and "has no side effect" (R51) on the codec. -/
def State.deliver (v : RegValue) (s : State) : State := { s with seen := s.seen ++ [v] }

/-- LOAD IN: "a host write replaces the entire content and length" (R51), whatever MAX_IN is (log 8). -/
def State.loadIn (v : Bytes) (s : State) : State := { s with req := { s.req with inp := v } }

/-- LOAD IN_W (R51). -/
def State.loadInW (v : List Word) (s : State) : State := { s with req := { s.req with inW := v } }

/-- LOAD REM_IN (R51). -/
def State.loadRemIn (v : Bytes) (s : State) : State := { s with req := { s.req with remIn := v } }

/-- R24: "A host write to `CMD` stores the word"; issuing the command is `issue` (Issue.lean). -/
def State.storeCmd (w : Word) (s : State) : State := { s with req := { s.req with cmd := w } }

/-- R36: "a host write has no effect" on a read-only register (log 18). -/
def State.writeReadOnly (_r : ReadOnlyReg) (_v : RegValue) (s : State) : State := s

/-- R80: COPY REM_OUT -> REM_IN, "a read followed by a write, empty when `STATUS.REM_VALID = 0`". -/
def State.copyRem (s : State) : State :=
  s.loadRemIn (if remValidOf s.status then s.resp.remOut else [])

end Sys2Proof.Machine
end

