-- ==== Sys2Proof/Machine/Float.lean ====
section
/-! DEFINITION. The Float Array Codec (42_float.md): binary32 words moved bit for bit, and FLT.ENC, FLT.DEC. -/

namespace Sys2Proof.Machine

/-- R14: `bytes_le(w) = [w[7:0], w[15:8], w[23:16], w[31:24]]`. -/
def bytesLe (w : Word) : Bytes :=
  [w.extractLsb' 0 8, w.extractLsb' 8 8, w.extractLsb' 16 8, w.extractLsb' 24 8]

/-- R14: `word_le(s)`, "`s[0] OR s[1]<<8 OR s[2]<<16 OR s[3]<<24`", of the four bytes `[a, b, c, d]`. -/
def wordLe (a b c d : Byte) : Word :=
  a.setWidth 32 ||| b.setWidth 32 <<< 8 ||| c.setWidth 32 <<< 16 ||| d.setWidth 32 <<< 24

/-- R172: the bytes of a word in the order FLOAT_ORDER. -/
def bytesOf (order : FloatOrder) (w : Word) : Bytes :=
  match order with
  | .littleEndian => bytesLe w
  | .bigEndian => (bytesLe w).reverse

/-- R172: the word of four bytes in the order FLOAT_ORDER. -/
def wordOfBytes (order : FloatOrder) (a b c d : Byte) : Word :=
  match order with
  | .littleEndian => wordLe a b c d
  | .bigEndian => wordLe d c b a

/-- R173: the loop of FLT.ENC. -/
def serializeWords (order : FloatOrder) : List Word → Bytes
  | [] => []
  | w :: ws => bytesOf order w ++ serializeWords order ws

/-- R175: the loop of FLT.DEC, over whole groups of four bytes. -/
def deserializeWords (order : FloatOrder) : Bytes → List Word
  | a :: b :: c :: d :: s => wordOfBytes order a b c d :: deserializeWords order s
  | _ => []

/-- R173's pseudocode. -/
def fltEncBody (s : State) : Except Code (Responses × Bool) :=
  .ok ({ s.resp with out := serializeWords s.cfg.floatOrder s.req.inW }, false)

/-- FLT.ENC (R173). -/
def execFltEnc (s : State) : Host.Outcome State Fault Refusal := runCommand s.inWSize fltEncBody s

/-- R175's pseudocode. -/
def fltDecBody (s : State) : Except Code (Responses × Bool) :=
  if s.req.inp.length % 4 ≠ 0 then .error .invalidLength
  else .ok ({ s.resp with outW := deserializeWords s.cfg.floatOrder s.req.inp }, false)

/-- FLT.DEC (R175). -/
def execFltDec (s : State) : Host.Outcome State Fault Refusal := runCommand s.inSize fltDecBody s

end Sys2Proof.Machine
end

