-- ==== Sys2Proof/Machine/Framer.lean ====
section
/-! DEFINITION. The Framer (40_framer.md): stuffing, destuffing and splitting, and FRAME.ENC, FRAME.DEC, FRAME.SPLIT. -/

namespace Sys2Proof.Machine

/-- R100: "a byte equal to `DELIM` (`0x00`) or to `ESC` (`0x7D`) becomes the two bytes `[ESC, b XOR MASK]`; every other
byte is copied unchanged". -/
def stuff (c : Config) : Bytes → Bytes
  | [] => []
  | b :: s =>
    if b = Config.delim ∨ b = c.esc then c.esc :: (b ^^^ c.mask) :: stuff c s else b :: stuff c s

/-- R104: "It first removes one trailing `DELIM` if the frame ends with one". -/
def stripDelim (f : Bytes) : Bytes := if f.getLast? = some Config.delim then f.dropLast else f

/-- R104: the left-to-right scan of a frame body. Its three failures are R105's (a), (b) and (c). -/
def destuffBody (c : Config) : Bytes → Except Code Bytes
  | [] => .ok []
  | b :: s =>
    if b = Config.delim then .error .framingError
    else if b = c.esc then
      match s with
      | [] => .error .framingError
      | e :: s =>
        if e = Config.delim ^^^ c.mask then (destuffBody c s).map (Config.delim :: ·)
        else if e = c.esc ^^^ c.mask then (destuffBody c s).map (c.esc :: ·)
        else .error .framingError
    else (destuffBody c s).map (b :: ·)

/-- R104: `destuff`. -/
def destuff (c : Config) (f : Bytes) : Except Code Bytes := destuffBody c (stripDelim f)

/-- R108: the loop of `split`: the frames that a delimiter of `s` ends, and the bytes after its last delimiter, where
`cur` holds the bytes since the delimiter before `s`. -/
def splitLoop : Bytes → Bytes → List Bytes × Bytes
  | cur, [] => ([], cur)
  | cur, b :: s =>
    if b = Config.delim then
      let (frames, rest) := splitLoop [] s
      (cur :: frames, rest)
    else splitLoop (cur ++ [b]) s

/-- R108: `split`: the complete candidate frames, and the remainder if there is one. -/
def split (s : Bytes) : List Bytes × Option Bytes :=
  if s = [] then ([], none)
  else
    let (frames, cur) := splitLoop [] s
    if s.getLast? = some Config.delim then (frames, none) else (frames, some cur)

/-- The frame of a buffer (R102): stuffed and delimited. -/
def frameOf (c : Config) (s : Bytes) : Bytes := stuff c s ++ [Config.delim]

/-- R102's pseudocode. -/
def frameEncBody (s : State) : Except Code (Responses × Bool) :=
  .ok ({ s.resp with out := frameOf s.cfg s.req.inp }, false)

/-- FRAME.ENC (R102). -/
def execFrameEnc (s : State) : Host.Outcome State Fault Refusal := runCommand s.inSize frameEncBody s

/-- R106's pseudocode. -/
def frameDecBody (s : State) : Except Code (Responses × Bool) :=
  match destuff s.cfg s.req.inp with
  | .error e => .error e
  | .ok buffer => .ok ({ s.resp with out := buffer }, false)

/-- FRAME.DEC (R106). -/
def execFrameDec (s : State) : Host.Outcome State Fault Refusal := runCommand s.inSize frameDecBody s

/-- R109's pseudocode. -/
def frameSplitBody (s : State) : Except Code (Responses × Bool) :=
  match split s.req.inp with
  | (frames, none) => .ok ({ s.resp with frames := frames }, false)
  | (frames, some remainder) => .ok ({ s.resp with frames := frames, remOut := remainder }, true)

/-- FRAME.SPLIT (R109). -/
def execFrameSplit (s : State) : Host.Outcome State Fault Refusal := runCommand s.inSize frameSplitBody s

end Sys2Proof.Machine
end

