-- ==== Sys2Proof/Machine/Trailer.lean ====
section
/-! DEFINITION. The Trailer/Checksum unit (41_trailer_checksum.md): the CRC-8, building and parsing a message, and CRC8,
MSG.BUILD, MSG.PARSE. -/

namespace Sys2Proof.Machine

/-- R131: `rev8(v)` "reverses the 8 bits of `v` (bit `i` to bit `7-i`)". -/
def rev8 (v : Byte) : Byte :=
  v.extractLsb' 0 1 ++ v.extractLsb' 1 1 ++ v.extractLsb' 2 1 ++ v.extractLsb' 3 1 ++
    v.extractLsb' 4 1 ++ v.extractLsb' 5 1 ++ v.extractLsb' 6 1 ++ v.extractLsb' 7 1

/-- One shift of the CRC register: R131's right shift with `rev8(CRC_POLY)` where the CRC is reflected, R132's left shift
with `CRC_POLY` where it is not. -/
def crcShift (reflect : Bool) (r : Byte) : Byte :=
  if reflect then
    if r.getLsbD 0 then (r >>> 1) ^^^ rev8 Config.crcPoly else r >>> 1
  else
    if r.getLsbD 7 then (r <<< 1) ^^^ Config.crcPoly else r <<< 1

/-- `n` shifts. -/
def crcShifts (reflect : Bool) : Nat → Byte → Byte
  | 0, r => r
  | n + 1, r => crcShifts reflect n (crcShift reflect r)

/-- One byte of the CRC (R131, R132): XOR it in, then 8 shifts. -/
def crcByte (reflect : Bool) (r b : Byte) : Byte := crcShifts reflect 8 (r ^^^ b)

/-- The CRC register over a byte sequence. -/
def crcRegister (reflect : Bool) : Byte → Bytes → Byte
  | r, [] => r
  | r, b :: s => crcRegister reflect (crcByte reflect r b) s

/-- The register's start: R131's `rev8(CRC_INIT)`, R132's `CRC_INIT`. -/
def crcStart (c : Config) : Byte := if c.crcReflect then rev8 c.crcInit else c.crcInit

/-- R131 (`CRC_REFLECT = true`) and R132 (`CRC_REFLECT = false`): `crc8`. -/
def crc8 (c : Config) (s : Bytes) : Byte := crcRegister c.crcReflect (crcStart c) s ^^^ Config.crcXorOut

/-- R141: the span the checksum covers, `payload ++ [packet_id, device_id, total_length]`. -/
def checkedSpan (dev pkt : Byte) (payload : Bytes) : Bytes :=
  payload ++ [pkt, dev, BitVec.ofNat 8 (payload.length + Config.trailerLen)]

/-- R140: the pre-framing buffer of a message. -/
def messageBuffer (c : Config) (dev pkt : Byte) (payload : Bytes) : Bytes :=
  let span := checkedSpan dev pkt payload
  span ++ [crc8 c span]

/-- A decoded message: "device_id + packet_id + payload" (00_scope.md, glossary). -/
structure Message where
  dev : Byte
  pkt : Byte
  payload : Bytes
deriving DecidableEq, Repr

/-- R144: the checks of a decoded buffer, in their fixed order. -/
def checkDecoded (c : Config) (d : Bytes) : Except Code Message :=
  if ¬ 3 < d.length then .error .tooShort
  else if (fromEnd d 2).toNat ≠ d.length then .error .lengthMismatch
  else if crc8 c (upToEnd d 1) ≠ fromEnd d 1 then .error .checksumMismatch
  else .ok { dev := fromEnd d 3, pkt := fromEnd d 4, payload := upToEnd d 4 }

/-- R144: `parse`. -/
def parse (c : Config) (f : Bytes) : Except Code Message :=
  match destuff c f with
  | .error e => .error e
  | .ok d => checkDecoded c d

/-- R134's pseudocode. -/
def crc8Body (s : State) : Except Code (Responses × Bool) :=
  .ok ({ s.resp with resCrc := crc8 s.cfg s.req.inp }, false)

/-- CRC8 (R134). -/
def execCrc8 (s : State) : Host.Outcome State Fault Refusal := runCommand s.inSize crc8Body s

/-- R142's pseudocode. -/
def msgBuildBody (dev pkt : Byte) (s : State) : Except Code (Responses × Bool) :=
  if Config.maxTotalLength < s.req.inp.length + Config.trailerLen then .error .payloadTooLarge
  else .ok ({ s.resp with out := frameOf s.cfg (messageBuffer s.cfg dev pkt s.req.inp) }, false)

/-- MSG.BUILD (R142). -/
def execMsgBuild (dev pkt : Byte) (s : State) : Host.Outcome State Fault Refusal :=
  runCommand s.inSize (msgBuildBody dev pkt) s

/-- R145's pseudocode. -/
def msgParseBody (s : State) : Except Code (Responses × Bool) :=
  match parse s.cfg s.req.inp with
  | .error e => .error e
  | .ok m => .ok ({ s.resp with resDev := m.dev, resPkt := m.pkt, out := m.payload }, false)

/-- MSG.PARSE (R145). -/
def execMsgParse (s : State) : Host.Outcome State Fault Refusal := runCommand s.inSize msgParseBody s

end Sys2Proof.Machine
end

