-- ==== Sys2Proof/Machine/Stream.lean ====
section
/-! DEFINITION. The receive composition (43_stream.md): STREAM.FEED. -/

namespace Sys2Proof.Machine

/-- R190: the RESULTS entry of one candidate frame. R35: a failed one has `dev = 0`, `pkt = 0`, `payload = []`. -/
def entryOf (c : Config) (frame : Bytes) : ResultEntry :=
  match parse c frame with
  | .ok m => { code := Code.num .ok, dev := m.dev, pkt := m.pkt, payload := m.payload }
  | .error e => { code := e.num, dev := 0x00#8, pkt := 0x00#8, payload := [] }

/-- R190's pseudocode. R191: a failed candidate frame never fails the command. -/
def streamFeedBody (s : State) : Except Code (Responses × Bool) :=
  match split s.feedInput with
  | (frames, none) => .ok ({ s.resp with results := frames.map (entryOf s.cfg) }, false)
  | (frames, some remainder) =>
    .ok ({ s.resp with results := frames.map (entryOf s.cfg), remOut := remainder }, true)

/-- STREAM.FEED (R190). -/
def execStreamFeed (s : State) : Host.Outcome State Fault Refusal := runCommand s.feedSize streamFeedBody s

end Sys2Proof.Machine
end

