-- ==== Sys2Proof/Machine/Dispatch.lean ====
section
/-! DEFINITION. One arm per command, each one call of its meaning. -/

namespace Sys2Proof.Machine

/-- The effect of a decoded command (30_encoding.md R83). -/
def exec (i : Instr) (s : State) : Host.Outcome State Fault Refusal :=
  match i with
  | .frameEnc => Sys2Proof.Machine.execFrameEnc s
  | .frameDec => Sys2Proof.Machine.execFrameDec s
  | .frameSplit => Sys2Proof.Machine.execFrameSplit s
  | .crc8 => Sys2Proof.Machine.execCrc8 s
  | .msgBuild dev pkt => Sys2Proof.Machine.execMsgBuild dev pkt s
  | .msgParse => Sys2Proof.Machine.execMsgParse s
  | .fltEnc => Sys2Proof.Machine.execFltEnc s
  | .fltDec => Sys2Proof.Machine.execFltDec s
  | .streamFeed => Sys2Proof.Machine.execStreamFeed s

end Sys2Proof.Machine
end

