-- ==== Sys2Proof/Machine/Issue.lean ====
section
/-! DEFINITION. Issuing a command word (30_encoding.md R71, R76) and performing one host action (R80). -/

namespace Sys2Proof.Machine

/-- R71: "A host write of word `w` to `CMD` issues exactly one command, decoded from `w` by rule R76 and executed
atomically". R24: the word is stored first, legal or not. R83's clearing
comes with the meaning (log 17). -/
def issue (w : Word) (s : State) : Host.Outcome State Fault Refusal :=
  let s := s.storeCmd w
  match decode w with
  | .ok i => exec i s
  | .error _ => illegalCommand s

/-- One host action (R80, R218, R230). No access but a write of CMD issues a command (R61). -/
def perform (a : HostAction) (s : State) : Host.Outcome State Fault Refusal :=
  match a with
  | .writeCmd w => issue w s
  | .loadIn v => .next (s.loadIn v)
  | .loadInW v => .next (s.loadInW v)
  | .loadRemIn v => .next (s.loadRemIn v)
  | .writeReadOnly r v => .next (s.writeReadOnly r v)
  | .read r => .next (s.deliver (s.readReg r))
  | .readElems r i n => .next (s.deliver (s.readElems r i n))
  | .copyRem => .next s.copyRem
  | .reset => .next s.resetRegisters

/-- R79: a command line of a program is the host's write of the command's word to CMD. -/
def HostAction.command (i : Instr) : HostAction := .writeCmd (encode i)

/-- The next step: the host's oldest pending action. With none pending the codec is idle (R231) and nothing changes
(log 3). -/
def hostStep (s : State) : Host.Outcome State Fault Refusal :=
  match s.todo with
  | [] => .next s
  | a :: rest => perform a { s with todo := rest }

/-- The state in which the host's next action is the write of `w`, of `nbits` bits, to CMD: the codec fetches nothing
(R21, R67), so a command comes to run by that write alone (log 4). -/
def withNextCommand (s : State) (nbits w : Nat) : State :=
  { s with todo := .writeCmd (BitVec.ofNat 32 (w % 2 ^ nbits)) :: s.todo }

end Sys2Proof.Machine
end

