-- ==== Sys2Proof/Machine/Step.lean ====
section
/-! DEFINITION. The machine's step: one host action, a command being one of them (10_state.md R22). -/

namespace Sys2Proof.Machine

/-- R22: "A model gives the codec one step per command." -/
def step (s : State) : Host.Outcome State Fault Refusal := hostStep s

/-- The state whose very next step runs the command word `w` (log 4). -/
def State.withFetchWord (s : State) (nbits w : Nat) : State := withNextCommand s nbits w

end Sys2Proof.Machine
end

