-- ==== Sys2Proof/Machine/Platform.lean ====
section
/-! DEFINITION. A platform of N_INST codec instances (60_exceptions.md R215, 20_memory.md R64): each instance is a State
of its own, and the schedule says whose host acts next. -/

namespace Sys2Proof.Machine

/-- R215: "A platform may hold `N_INST >= 1` codec instances; each has its own registers of 10_state.md". N_INST is the
list's length. -/
structure Platform where
  /-- The instances, by number. -/
  instances : List State
  /-- The order in which the instances' hosts act: instance numbers, the next first. R63 orders one instance's
  accesses; across instances any order is allowed, and any list may stand here. -/
  schedule : List Nat
deriving DecidableEq, Repr

/-- R215: N_INST instances with one set of parameters, "each starts at reset". -/
def platformAtReset (nInst : Nat) (c : Config) (schedule : List Nat) : Platform :=
  { instances := List.replicate nInst { State.reset with cfg := c }, schedule := schedule }

/-- R9, R215: `N_INST >= 1`. -/
abbrev Platform.Legal (p : Platform) : Prop := 1 ≤ p.instances.length

/-- One step of the platform: the scheduled instance's step, no other instance touched (R64). An empty schedule is an
idle platform. -/
def platformStep (p : Platform) : Host.Outcome Platform Fault Refusal :=
  match p.schedule with
  | [] => .next p
  | k :: rest =>
    match p.instances[k]? with
    | none => .fault .noSuchInstance
    | some s =>
      match step s with
      | .next t => .next { instances := p.instances.set k t, schedule := rest }
      | .fault r => .fault r
      | .refused r => .refused r

/-- `n` steps of the platform, stopping at the first fault or refusal. -/
def platformRun : Nat → Platform → Host.Outcome Platform Fault Refusal
  | 0, p => .next p
  | n + 1, p =>
    match platformStep p with
    | .next q => platformRun n q
    | .fault r => .fault r
    | .refused r => .refused r

end Sys2Proof.Machine
end

