-- ==== Sys2Proof/Safety.lean ====
section
/-! DEFINITION. What counts as a safe run, and the terms in which claims speak: the invariant of STATUS and the response
registers, the capacity condition, and the host's chunked use of STREAM.FEED. -/

namespace Sys2Proof.Machine

/-- R59: the input size does not exceed MAX_IN. -/
def Fits (c : Config) (size : Nat) : Prop := ∀ bound, c.maxIn = some bound → size ≤ bound

/-- R59: the input size exceeds MAX_IN. -/
def Exceeds (c : Config) (size : Nat) : Prop := ∃ bound, c.maxIn = some bound ∧ bound < size

/-- What the response registers promise in every state (R28, R31, R32, R35, R42, R201, R202, R205). -/
structure State.Inv (s : State) : Prop where
  /-- R28: bits [31:6] read as zero. -/
  reserved_zero : reservedOf s.status = 0#26
  /-- R201: codes 9..15 are never written. -/
  code_assigned : (codeOf s.status).toNat ≤ 8
  /-- R28, R32: REM_VALID tells whether REM_OUT holds a remainder; a remainder is never empty. -/
  remValid_iff : remValidOf s.status = true ↔ s.resp.remOut ≠ []
  /-- R28: REM_VALID is 1 only after a command that completed with OK. -/
  remValid_ok : remValidOf s.status = true → codeOf s.status = 0#4
  /-- R205: after a failed command every response register is cleared. -/
  failed_cleared : codeOf s.status ≠ 0#4 → s.resp = Responses.cleared
  /-- R28, R42: VALID = 0 only before the first command since reset. -/
  notValid_reset : validOf s.status = false → s.status = 0#32 ∧ s.resp = Responses.cleared
  /-- R31: each candidate frame stands without its delimiter. -/
  frames_undelimited : ∀ f ∈ s.resp.frames, Config.delim ∉ f
  /-- R108: the remainder is the bytes after the last delimiter. -/
  remOut_undelimited : Config.delim ∉ s.resp.remOut
  /-- R202: the codes an entry can carry. -/
  entry_code : ∀ e ∈ s.resp.results, e.code.toNat ≤ 4
  /-- R35: a failed entry's other fields. -/
  entry_failed : ∀ e ∈ s.resp.results, e.code ≠ 0#4 → e.dev = 0x00#8 ∧ e.pkt = 0x00#8 ∧ e.payload = []
  /-- R9, R144: an accepted message's payload is at most MAX_PAYLOAD bytes. -/
  entry_payload : ∀ e ∈ s.resp.results, e.payload.length ≤ Config.maxPayload

/-- A run of `n` steps is safe when it ends in a next state that keeps the invariant: "No operation in the core
terminates the process" (60_exceptions.md) and none corrupts a later one. -/
def SafeRun (n : Nat) (s : State) : Prop := ∃ t, Host.Core.run Sys2Proof.core n s = .next t ∧ t.Inv

/-- R192: the host's receive of a list of chunks: for each, load it into IN, issue STREAM.FEED, read RESULTS, carry the
remainder into REM_IN. Answers the entries read, in order, and the state left. -/
def feedAll : State → List Bytes → Option (List ResultEntry × State)
  | s, [] => some ([], s)
  | s, chunk :: chunks =>
    match exec .streamFeed (s.loadIn chunk) with
    | .next t =>
      match feedAll t.copyRem chunks with
      | some (entries, u) => some (t.resp.results ++ entries, u)
      | none => none
    | .fault _ => none
    | .refused _ => none

end Sys2Proof.Machine
end

