-- ==== Sys2Proof/Certificates/Slice0/Obligations.lean ====
section
/-! DEFINITION. The statements for the provers, each one a rule of spec/ or a consequence of several. A host's action is
written `s.todo = a :: rest`; `todo` and `seen` are the model's own fields (log 2, log 5), no rule's. -/

open Sys2Proof Sys2Proof.Machine

/-! ### Reset, the invariant and the step -/

/-- R42, R230: reset's value of every register, and the host's reset of a running codec; that the latter leaves what the
host has still to do and has read is the model's choice (log 11). -/
def Obligations.ResetSetsEveryRegister : Prop :=
  (State.reset.req = { cmd := 0x00000000#32, inp := [], inW := [], remIn := [] } ∧
    State.reset.status = 0x00000000#32 ∧
    State.reset.resp =
      { out := [], outW := [], frames := [], remOut := [], resDev := 0x00#8, resPkt := 0x00#8, resCrc := 0x00#8,
        results := [] }) ∧
  ∀ (s : State) (rest : List HostAction), s.todo = .reset :: rest →
    step s = .next
      { s with
        todo := rest
        req := { cmd := 0x00000000#32, inp := [], inW := [], remIn := [] }
        status := 0x00000000#32
        resp :=
          { out := [], outW := [], frames := [], remOut := [], resDev := 0x00#8, resPkt := 0x00#8, resCrc := 0x00#8,
            results := [] } }

/-- The invariant of the response registers holds at reset. -/
def Obligations.ResetMeetsTheInvariant : Prop := State.reset.Inv

/-- The invariant of the response registers is kept by every step, whatever the host does. -/
def Obligations.StepKeepsTheInvariant : Prop :=
  ∀ s t : State, s.Inv → step s = .next t → t.Inv

/-- R200: the codec never traps: every command completes and writes STATUS, and every step answers a next state. -/
def Obligations.NothingStopsTheCodec : Prop :=
  (∀ (i : Instr) (s : State), ∃ t, exec i s = .next t ∧ validOf t.status = true) ∧
  ∀ s : State, ∃ t, step s = .next t

/-- "No operation in the core terminates the process" (60_exceptions.md): from any state that meets the invariant, a run of any length with any host actions is safe. -/
def Obligations.EveryRunIsSafe : Prop :=
  ∀ (n : Nat) (s : State), s.Inv → SafeRun n s

/-- R71: a write of a word that decodes to a command runs that command, atomically, on the request registers as they
stand and with the word stored in CMD. -/
def Obligations.StepRunsTheDecodedCommand : Prop :=
  (∀ (s : State) (w : Word) (rest : List HostAction) (i : Instr),
    s.todo = .writeCmd w :: rest → decode w = .ok i →
    step s = exec i { s with todo := rest, req := { s.req with cmd := w } }) ∧
  ∀ (s : State) (w : Word) (i : Instr), decode w = .ok i →
    step (s.withFetchWord 32 w.toNat) = exec i { s with req := { s.req with cmd := w } }

/-- The model's choice (log 3): with nothing pending the codec is idle, and a step changes nothing. -/
def Obligations.IdleStepChangesNothing : Prop :=
  ∀ s : State, s.todo = [] → step s = .next s

/-! ### Decoding -/

/-- R75's rows: match, mask and mnemonic. -/
def Sys2Proof.opcodeRows : List (Word × Word × String) :=
  [(0x00000001#32, 0xFFFFFFFF#32, "FRAME.ENC"), (0x00000002#32, 0xFFFFFFFF#32, "FRAME.DEC"),
   (0x00000003#32, 0xFFFFFFFF#32, "FRAME.SPLIT"), (0x00000010#32, 0xFFFFFFFF#32, "CRC8"),
   (0x00000011#32, 0xFF0000FF#32, "MSG.BUILD"), (0x00000012#32, 0xFFFFFFFF#32, "MSG.PARSE"),
   (0x00000020#32, 0xFFFFFFFF#32, "FLT.ENC"), (0x00000021#32, 0xFFFFFFFF#32, "FLT.DEC"),
   (0x00000030#32, 0xFFFFFFFF#32, "STREAM.FEED")]

/-- R76: a word is the command of the row it matches under that row's mask, at most one row matches, and a word that
matches none completes with IllegalCommand (STATUS = 0x27), every response register cleared, with no other effect but
CMD's own write, even where the input exceeds MAX_IN. -/
def Obligations.WordsDecodeByMatchAndMask : Prop :=
  (∀ (w : Word), ∀ row ∈ opcodeRows,
    w &&& row.2.1 = row.1 ↔ ∃ i, decode w = .ok i ∧ mnemonic i = row.2.2) ∧
  (∀ (w : Word), ∀ row ∈ opcodeRows, ∀ row' ∈ opcodeRows,
    w &&& row.2.1 = row.1 → w &&& row'.2.1 = row'.1 → row = row') ∧
  ∀ (s : State) (w : Word) (rest : List HostAction), s.todo = .writeCmd w :: rest →
    (∀ row ∈ opcodeRows, w &&& row.2.1 ≠ row.1) →
    step s = .next
      { s with todo := rest, req := { s.req with cmd := w }, status := 0x27#32, resp := Responses.cleared }

/-- R77: exactly which words are illegal, by their four fields, and how many opcodes are unassigned. -/
def Obligations.IllegalWordsAreExactly : Prop :=
  (∀ w : Word,
    (∃ e, decode w = .error e) ↔
      (w.extractLsb' 0 8 ∉
          [0x01#8, 0x02#8, 0x03#8, 0x10#8, 0x11#8, 0x12#8, 0x20#8, 0x21#8, 0x30#8] ∨
        w.extractLsb' 24 8 ≠ 0x00#8 ∨
        (w.extractLsb' 0 8 ≠ 0x11#8 ∧ (w.extractLsb' 8 8 ≠ 0x00#8 ∨ w.extractLsb' 16 8 ≠ 0x00#8)))) ∧
  ((List.range 256).filter fun op =>
      decide (BitVec.ofNat 8 op ∉
        [0x01#8, 0x02#8, 0x03#8, 0x10#8, 0x11#8, 0x12#8, 0x20#8, 0x21#8, 0x30#8])).length = 247

/-- R72: the two operands of MSG.BUILD are bits [15:8] and [23:16] of its word. -/
def Obligations.OperandsAreTheWordsFields : Prop :=
  ∀ (w : Word) (dev pkt : Byte), decode w = .ok (.msgBuild dev pkt) →
    dev = w.extractLsb' 8 8 ∧ pkt = w.extractLsb' 16 8

/-- Decoding and encoding are inverse: every command, with every operand, comes back from its word, and every word that
is a command is that command's word. -/
def Obligations.EncodeAndDecodeAreInverse : Prop :=
  (∀ i : Instr, decode (encode i) = .ok i) ∧
  ∀ (w : Word) (i : Instr), decode w = .ok i → encode i = w

/-- Words of spec/opcode_table.json and of R79's encoding of MSG.BUILD decode to the commands they stand for. -/
def Obligations.TableWordsDecode : Prop :=
  decode 0x00000001#32 = .ok .frameEnc ∧ decode 0x00000002#32 = .ok .frameDec ∧
  decode 0x00000003#32 = .ok .frameSplit ∧ decode 0x00000010#32 = .ok .crc8 ∧
  decode 0x00030D11#32 = .ok (.msgBuild 0x0D#8 0x03#8) ∧ decode 0x00000012#32 = .ok .msgParse ∧
  decode 0x00000020#32 = .ok .fltEnc ∧ decode 0x00000021#32 = .ok .fltDec ∧
  decode 0x00000030#32 = .ok .streamFeed ∧
  ∀ dev pkt : Byte,
    decode (0x11#32 ||| dev.setWidth 32 <<< 8 ||| pkt.setWidth 32 <<< 16) = .ok (.msgBuild dev pkt)

/-! ### What every command has in common -/

/-- R37: the codec never writes a request register; nor does a command touch the parameters or the host's own record. -/
def Obligations.CommandsNeverWriteRequests : Prop :=
  ∀ (i : Instr) (s t : State), exec i s = .next t →
    t.req = s.req ∧ t.cfg = s.cfg ∧ t.todo = s.todo ∧ t.seen = s.seen

/-- R37, R36: across any step a request register changes only by the host's write of that register, COPY (REM_IN) or
reset, and the parameters never change. -/
def Obligations.RequestsChangeOnlyByTheHost : Prop :=
  ∀ s t : State, step s = .next t →
    t.cfg = s.cfg ∧
    (t.req.cmd = s.req.cmd ∨ (∃ w rest, s.todo = .writeCmd w :: rest ∧ t.req.cmd = w) ∨
      ∃ rest, s.todo = .reset :: rest) ∧
    (t.req.inp = s.req.inp ∨ (∃ v rest, s.todo = .loadIn v :: rest ∧ t.req.inp = v) ∨
      ∃ rest, s.todo = .reset :: rest) ∧
    (t.req.inW = s.req.inW ∨ (∃ v rest, s.todo = .loadInW v :: rest ∧ t.req.inW = v) ∨
      ∃ rest, s.todo = .reset :: rest) ∧
    (t.req.remIn = s.req.remIn ∨ (∃ v rest, s.todo = .loadRemIn v :: rest ∧ t.req.remIn = v) ∨
      (∃ rest, s.todo = .copyRem :: rest) ∨ ∃ rest, s.todo = .reset :: rest)

/-- R36, R63: STATUS and the response registers change only in a step that issues a command or resets the codec. -/
def Obligations.ResponsesChangeOnlyByCommands : Prop :=
  ∀ s t : State, step s = .next t →
    (t.status = s.status ∧ t.resp = s.resp) ∨ (∃ w rest, s.todo = .writeCmd w :: rest) ∨
      ∃ rest, s.todo = .reset :: rest

/-- R38: a command starts from cleared response registers: what STATUS and the response registers held before makes no
difference, and every response register its rule does not name holds its reset value after it. -/
def Obligations.CommandsStartFromClearedResponses : Prop :=
  (∀ (i : Instr) (s : State) (status : Word) (r : Responses),
    exec i { s with status := status, resp := r } = exec i s) ∧
  ∀ (i : Instr) (s t : State), exec i s = .next t →
    (i ∉ [.frameEnc, .frameDec, .msgParse, .fltEnc] → (∀ dev pkt, i ≠ .msgBuild dev pkt) → t.resp.out = []) ∧
    (i ≠ .fltDec → t.resp.outW = []) ∧
    (i ≠ .frameSplit → t.resp.frames = []) ∧
    (i ≠ .frameSplit → i ≠ .streamFeed → t.resp.remOut = []) ∧
    (i ≠ .msgParse → t.resp.resDev = 0x00#8 ∧ t.resp.resPkt = 0x00#8) ∧
    (i ≠ .crc8 → t.resp.resCrc = 0x00#8) ∧
    (i ≠ .streamFeed → t.resp.results = [])

/-- R61: a command is a function of the command and the request registers it reads: two states that agree on those and
on the parameters, whatever else they hold, leave the same STATUS and response registers. -/
def Obligations.ResponsesDependOnlyOnRequests : Prop :=
  ∀ (i : Instr) (s s' t t' : State), s.cfg = s'.cfg →
    (i ≠ .fltEnc → s.req.inp = s'.req.inp) → (i = .fltEnc → s.req.inW = s'.req.inW) →
    (i = .streamFeed → s.req.remIn = s'.req.remIn) →
    exec i s = .next t → exec i s' = .next t' → t.status = t'.status ∧ t.resp = t'.resp

/-- R207: whatever word the host wrote to CMD, and however that completed, every command leaves afterwards the STATUS
and response registers it would have left before. -/
def Obligations.EarlierCommandsNeverMatter : Prop :=
  ∀ (w : Word) (rest : List HostAction) (s t : State), s.todo = .writeCmd w :: rest → step s = .next t →
    ∀ (j : Instr) (u v : State), exec j s = .next u → exec j t = .next v →
      v.status = u.status ∧ v.resp = u.resp

/-- R28, R32: the fields of STATUS after a command. -/
def Obligations.StatusFieldsAfterACommand : Prop :=
  ∀ (i : Instr) (s t : State), exec i s = .next t →
    reservedOf t.status = 0#26 ∧ validOf t.status = true ∧
    (remValidOf t.status = true ↔
      (i = .frameSplit ∨ i = .streamFeed) ∧ codeOf t.status = 0#4 ∧ t.resp.remOut ≠ []) ∧
    (remValidOf t.status = false → t.resp.remOut = [])

/-- R205: a write of any word, legal or not, that completes with a code other than OK leaves every response register
cleared, REM_VALID = 0 and VALID = 1, and changes nothing else but CMD. -/
def Obligations.FailedCommandsLeaveNothing : Prop :=
  ∀ (w : Word) (rest : List HostAction) (s t : State), s.todo = .writeCmd w :: rest → step s = .next t →
    codeOf t.status ≠ 0#4 →
    t = { s with
          todo := rest
          req := { s.req with cmd := w }
          status := 0x20#32 ||| (codeOf t.status).setWidth 32
          resp :=
            { out := [], outW := [], frames := [], remOut := [], resDev := 0x00#8, resPkt := 0x00#8,
              resCrc := 0x00#8, results := [] } }

/-- R201, R202: the codes each command can complete with, the codes a RESULTS entry can carry, and that each of the
latter is carried by some entry. -/
def Obligations.CodesEachCommandRaises : Prop :=
  (∀ (i : Instr) (s t : State), exec i s = .next t →
    (∀ e ∈ t.resp.results, e.code ∈ [0#4, 1#4, 2#4, 3#4, 4#4]) ∧
    (i ∈ [.frameEnc, .frameSplit, .crc8, .fltEnc, .streamFeed] → codeOf t.status ∈ [0#4, 8#4]) ∧
    (i = .frameDec → codeOf t.status ∈ [0#4, 1#4, 8#4]) ∧
    (∀ dev pkt, i = .msgBuild dev pkt → codeOf t.status ∈ [0#4, 5#4, 8#4]) ∧
    (i = .msgParse → codeOf t.status ∈ [0#4, 1#4, 2#4, 3#4, 4#4, 8#4]) ∧
    (i = .fltDec → codeOf t.status ∈ [0#4, 6#4, 8#4])) ∧
  ∀ code ∈ [0#4, 1#4, 2#4, 3#4, 4#4], ∃ s t : State,
    exec .streamFeed s = .next t ∧ ∃ e ∈ t.resp.results, e.code = code

/-- R59: an input larger than MAX_IN completes with CapacityExceeded and no other effect; within MAX_IN, and always with
MAX_IN unbounded, no command does; and the bound limits the input, not the output. -/
def Obligations.CapacityLimitsTheInput : Prop :=
  (∀ (i : Instr) (s : State),
    ((i ≠ .fltEnc ∧ i ≠ .streamFeed ∧ Exceeds s.cfg s.req.inp.length) ∨
      (i = .fltEnc ∧ Exceeds s.cfg (4 * s.req.inW.length)) ∨
      (i = .streamFeed ∧ Exceeds s.cfg (s.req.remIn.length + s.req.inp.length))) →
    exec i s = .next { s with status := 0x28#32, resp := Responses.cleared }) ∧
  (∀ (i : Instr) (s t : State),
    (i ≠ .fltEnc → i ≠ .streamFeed → Fits s.cfg s.req.inp.length) →
    (i = .fltEnc → Fits s.cfg (4 * s.req.inW.length)) →
    (i = .streamFeed → Fits s.cfg (s.req.remIn.length + s.req.inp.length)) →
    exec i s = .next t → codeOf t.status ≠ 8#4) ∧
  (∀ (i : Instr) (s t : State), s.cfg.maxIn = none → exec i s = .next t → codeOf t.status ≠ 8#4) ∧
  ∀ (s t : State) (bound : Nat), s.cfg.maxIn = some bound → exec .frameEnc s = .next t →
    t.resp.out.length ≤ 2 * bound + 1

/-! ### The host's accesses -/

/-- R36, R51: a host load replaces the whole register and touches nothing else; a host write to a read-only register has
no effect. -/
def Obligations.HostWritesAreWholeRegister : Prop :=
  ∀ (s : State) (rest : List HostAction),
    (∀ v, s.todo = .loadIn v :: rest → step s = .next { s with todo := rest, req := { s.req with inp := v } }) ∧
    (∀ v, s.todo = .loadInW v :: rest → step s = .next { s with todo := rest, req := { s.req with inW := v } }) ∧
    (∀ v, s.todo = .loadRemIn v :: rest → step s = .next { s with todo := rest, req := { s.req with remIn := v } }) ∧
    (∀ r v, s.todo = .writeReadOnly r v :: rest → step s = .next { s with todo := rest })

/-- R24 to R36: what the host reads of each register, and of each length that a rule names. -/
def Sys2Proof.registerContents (s : State) : List (Reg × RegValue) :=
  [(.cmd, .word s.req.cmd), (.status, .word s.status), (.resDev, .byte s.resp.resDev), (.resPkt, .byte s.resp.resPkt),
   (.resCrc, .byte s.resp.resCrc), (.seq .inp, .bytes s.req.inp), (.seq .inW, .words s.req.inW),
   (.seq .remIn, .bytes s.req.remIn), (.seq .out, .bytes s.resp.out), (.seq .outW, .words s.resp.outW),
   (.seq .frames, .frames s.resp.frames), (.seq .remOut, .bytes s.resp.remOut),
   (.seq .results, .results s.resp.results), (.len .inp, .count s.req.inp.length),
   (.len .inW, .count s.req.inW.length), (.len .out, .count s.resp.out.length),
   (.len .frames, .count s.resp.frames.length), (.len .results, .count s.resp.results.length)]

/-- R36, R51: a host read delivers the register's content or length and has no side effect on the codec. -/
def Obligations.HostReadsDeliverTheRegister : Prop :=
  ∀ (s : State) (rest : List HostAction) (r : Reg) (v : RegValue),
    (r, v) ∈ registerContents s → s.todo = .read r :: rest → step s = .next { s with todo := rest, seen := s.seen ++ [v] }

/-- R51: a read of single elements returns what the whole read would contain at those indices, and has no side effect. -/
def Obligations.ElementReadsAgreeWithWholeReads : Prop :=
  (∀ (s : State) (rest : List HostAction) (r : SeqReg) (v : Bytes),
    (r, v) ∈ [(SeqReg.inp, s.req.inp), (.remIn, s.req.remIn), (.out, s.resp.out), (.remOut, s.resp.remOut)] →
    ∀ pre mid post, v = pre ++ mid ++ post → s.todo = .readElems r pre.length mid.length :: rest →
      step s = .next { s with todo := rest, seen := s.seen ++ [.bytes mid] }) ∧
  (∀ (s : State) (rest : List HostAction) (r : SeqReg) (v : List Word),
    (r, v) ∈ [(SeqReg.inW, s.req.inW), (.outW, s.resp.outW)] →
    ∀ pre mid post, v = pre ++ mid ++ post → s.todo = .readElems r pre.length mid.length :: rest →
      step s = .next { s with todo := rest, seen := s.seen ++ [.words mid] }) ∧
  ∀ (s : State) (rest : List HostAction),
    (∀ pre mid post, s.resp.frames = pre ++ mid ++ post →
      s.todo = .readElems .frames pre.length mid.length :: rest →
      step s = .next { s with todo := rest, seen := s.seen ++ [.frames mid] }) ∧
    ∀ pre mid post, s.resp.results = pre ++ mid ++ post →
      s.todo = .readElems .results pre.length mid.length :: rest →
      step s = .next { s with todo := rest, seen := s.seen ++ [.results mid] }

/-- R80: COPY REM_OUT -> REM_IN, empty when REM_VALID = 0. -/
def Obligations.CopyCarriesTheRemainder : Prop :=
  ∀ (s : State) (rest : List HostAction), s.todo = .copyRem :: rest →
    (remValidOf s.status = true →
      step s = .next { s with todo := rest, req := { s.req with remIn := s.resp.remOut } }) ∧
    (remValidOf s.status = false → step s = .next { s with todo := rest, req := { s.req with remIn := [] } })

/-! ### The Framer -/

/-- R100, R101: stuffing byte by byte, with this hardware's escape byte and codes. -/
def Obligations.StuffingEscapesExactlyTwoBytes : Prop :=
  ∀ c : Config, c.IsHardware →
    (∀ s : Bytes, stuff c s =
      s.flatMap fun b => if b = 0x00#8 ∨ b = 0x7D#8 then [0x7D#8, b ^^^ 0x20#8] else [b]) ∧
    stuff c [0x00#8] = [0x7D#8, 0x20#8] ∧ stuff c [0x7D#8] = [0x7D#8, 0x5D#8] ∧
    ∀ b : Byte, b ≠ 0x00#8 → b ≠ 0x7D#8 → stuff c [b] = [b]

/-- R102: FRAME.ENC. -/
def Obligations.FrameEncFramesTheInput : Prop :=
  encode .frameEnc = 0x00000001#32 ∧
  (∀ s : State, Fits s.cfg s.req.inp.length →
    exec .frameEnc s = .next
      { s with status := 0x20#32, resp := { Responses.cleared with out := stuff s.cfg s.req.inp ++ [0x00#8] } }) ∧
  (∀ s : State, Exceeds s.cfg s.req.inp.length →
    exec .frameEnc s = .next { s with status := 0x28#32, resp := Responses.cleared }) ∧
  ∀ c : Config, c.IsHardware →
    stuff c [] ++ [0x00#8] = [0x00#8] ∧
    (∀ s : Bytes, (∀ b ∈ s, b = 0x00#8 ∨ b = 0x7D#8) → (stuff c s ++ [0x00#8]).length = 2 * s.length + 1) ∧
    (∀ s : Bytes, (∀ b ∈ s, b ≠ 0x00#8 ∧ b ≠ 0x7D#8) → stuff c s ++ [0x00#8] = s ++ [0x00#8]) ∧
    stuff c [0x01#8, 0x00#8, 0x7D#8, 0x02#8] ++ [0x00#8] =
      [0x01#8, 0x7D#8, 0x20#8, 0x7D#8, 0x5D#8, 0x02#8, 0x00#8]

/-- R103: the length of a frame, its one delimiter, and where ESC stands in a stuffed buffer. -/
def Obligations.FramesHoldOneDelimiterAtTheEnd : Prop :=
  ∀ (c : Config) (s : Bytes), c.Legal →
    (stuff c s ++ [0x00#8]).length = s.length + s.countP (fun b => b = 0x00#8 ∨ b = c.esc) + 1 ∧
    s.length + 1 ≤ (stuff c s ++ [0x00#8]).length ∧ (stuff c s ++ [0x00#8]).length ≤ 2 * s.length + 1 ∧
    0x00#8 ∉ stuff c s ∧
    ∀ k, (stuff c s)[k]? = some c.esc →
      (stuff c s)[k + 1]? = some (0x00#8 ^^^ c.mask) ∨ (stuff c s)[k + 1]? = some (c.esc ^^^ c.mask)

/-- R105: destuffing fails in exactly three cases, met first by a scan from the left after one trailing delimiter is
removed, and always with FramingError. -/
def Obligations.DestuffFailsInThreeCases : Prop :=
  ∀ (c : Config) (f body : Bytes), c.Legal →
    (f = body ++ [0x00#8] ∨ (f = body ∧ ∀ g, f ≠ g ++ [0x00#8])) →
    (∀ e, destuff c f = .error e → e = .framingError) ∧
    (destuff c f = .error .framingError ↔
      ∃ (decoded rest : Bytes), body = stuff c decoded ++ rest ∧
        ((∃ tail, rest = 0x00#8 :: tail) ∨ rest = [c.esc] ∨
          ∃ e tail, rest = c.esc :: e :: tail ∧ e ≠ 0x00#8 ^^^ c.mask ∧ e ≠ c.esc ^^^ c.mask))

/-- R106: FRAME.DEC. -/
def Obligations.FrameDecRecoversTheBuffer : Prop :=
  encode .frameDec = 0x00000002#32 ∧
  (∀ (s : State) (buffer : Bytes), Fits s.cfg s.req.inp.length → destuff s.cfg s.req.inp = .ok buffer →
    exec .frameDec s = .next { s with status := 0x20#32, resp := { Responses.cleared with out := buffer } }) ∧
  (∀ s : State, Fits s.cfg s.req.inp.length → destuff s.cfg s.req.inp = .error .framingError →
    exec .frameDec s = .next { s with status := 0x21#32, resp := Responses.cleared }) ∧
  (∀ s : State, Exceeds s.cfg s.req.inp.length →
    exec .frameDec s = .next { s with status := 0x28#32, resp := Responses.cleared }) ∧
  ∀ c : Config, c.IsHardware →
    destuff c [] = .ok [] ∧ destuff c [0x00#8] = .ok [] ∧
    destuff c [0x00#8, 0x00#8] = .error .framingError ∧ destuff c [0x7D#8] = .error .framingError ∧
    destuff c [0x7D#8, 0x00#8] = .error .framingError ∧ destuff c [0x7D#8, 0x7D#8] = .error .framingError ∧
    destuff c [0x7D#8, 0x5D#8, 0x7D#8, 0x20#8] = .ok [0x7D#8, 0x00#8]

/-- R107: destuffing inverts stuffing, with and without the delimiter, and a delimiter-free body that destuffs is the
stuffing of what it destuffs to. -/
def Obligations.StuffingIsABijection : Prop :=
  ∀ c : Config, c.Legal →
    (∀ s : Bytes, destuff c (stuff c s ++ [0x00#8]) = .ok s ∧ destuff c (stuff c s) = .ok s) ∧
    ∀ g s : Bytes, 0x00#8 ∉ g → destuff c g = .ok s → stuff c s = g

/-- R108: splitting cuts at every delimiter: the only way to write a buffer as delimited frames and a non-empty
remainder, or no remainder. -/
def Obligations.SplitCutsAtEveryDelimiter : Prop :=
  ∀ (s : Bytes) (frames : List Bytes) (rem : Option Bytes),
    split s = (frames, rem) ↔
      s = frames.flatMap (· ++ [0x00#8]) ++ rem.getD [] ∧
      (∀ f ∈ frames, 0x00#8 ∉ f) ∧ ∀ r, rem = some r → r ≠ [] ∧ 0x00#8 ∉ r

/-- R109: FRAME.SPLIT. -/
def Obligations.FrameSplitSplitsTheInput : Prop :=
  encode .frameSplit = 0x00000003#32 ∧
  (∀ (s : State) (frames : List Bytes), Fits s.cfg s.req.inp.length → split s.req.inp = (frames, none) →
    exec .frameSplit s = .next { s with status := 0x20#32, resp := { Responses.cleared with frames := frames } }) ∧
  (∀ (s : State) (frames : List Bytes) (r : Bytes), Fits s.cfg s.req.inp.length →
    split s.req.inp = (frames, some r) →
    exec .frameSplit s = .next
      { s with status := 0x30#32, resp := { Responses.cleared with frames := frames, remOut := r } }) ∧
  (∀ s : State, Exceeds s.cfg s.req.inp.length →
    exec .frameSplit s = .next { s with status := 0x28#32, resp := Responses.cleared }) ∧
  split [] = ([], none) ∧ split [0x00#8] = ([[]], none) ∧ split [0x00#8, 0x00#8] = ([[], []], none) ∧
  split [0x41#8] = ([], some [0x41#8]) ∧ split [0x00#8, 0x41#8] = ([[]], some [0x41#8]) ∧
  split [0x41#8, 0x00#8, 0x42#8] = ([[0x41#8]], some [0x42#8])

/-- R110: splitting two frames, a frame and a partial one, the count of bytes, and splitting on from a remainder. -/
def Obligations.SplitOfFramesAndChunks : Prop :=
  (∀ (c : Config) (a b : Bytes), c.Legal →
    split ((stuff c a ++ [0x00#8]) ++ (stuff c b ++ [0x00#8])) = ([stuff c a, stuff c b], none)) ∧
  (∀ (c : Config) (a p : Bytes), c.Legal → p ≠ [] → 0x00#8 ∉ p →
    split ((stuff c a ++ [0x00#8]) ++ p) = ([stuff c a], some p)) ∧
  (∀ s : Bytes,
    ((split s).1.map List.length).sum + ((split s).2.getD []).length + s.countP (fun b => b = 0x00#8) = s.length) ∧
  ∀ u chunk : Bytes,
    split (u ++ chunk) =
      ((split u).1 ++ (split ((split u).2.getD [] ++ chunk)).1, (split ((split u).2.getD [] ++ chunk)).2)

/-! ### The Trailer/Checksum unit -/

/-- R131, R132: both forms of the CRC, bit by bit, and that the reflected form is the other one on reflected bytes. -/
def Obligations.CrcIsBitSerial : Prop :=
  (∀ c : Config, c.crcReflect = true → c.crcInit = 0xFF#8 →
    crc8 c [] = 0x00#8 ∧
    ∀ (s : Bytes) (b : Byte), crc8 c (s ++ [b]) =
      ((fun r : Byte => if r &&& 0x01#8 = 0x01#8 then (r >>> 1) ^^^ 0xB2#8 else r >>> 1)^[8]
        ((crc8 c s ^^^ 0xFF#8) ^^^ b)) ^^^ 0xFF#8) ∧
  (∀ c : Config, c.crcReflect = false → c.crcInit = 0xFF#8 →
    crc8 c [] = 0x00#8 ∧
    ∀ (s : Bytes) (b : Byte), crc8 c (s ++ [b]) =
      ((fun r : Byte => if r &&& 0x80#8 = 0x80#8 then (r <<< 1) ^^^ 0x4D#8 else r <<< 1)^[8]
        ((crc8 c s ^^^ 0xFF#8) ^^^ b)) ^^^ 0xFF#8) ∧
  ∀ (c : Config) (s : Bytes), c.crcReflect = true →
    crc8 c s = (crc8 { c with crcReflect := false } (s.map BitVec.reverse)).reverse

/-- R133: the CRC of nothing, its affinity, that no single-bit error passes, and that some two-bit error does. -/
def Obligations.CrcMissesNoSingleBitError : Prop :=
  ∀ c : Config, c.crcInit = 0xFF#8 →
    crc8 c [] = 0x00#8 ∧
    (∀ s t s' t' : Bytes, s.length = t.length → s'.length = t'.length →
      List.zipWith (· ^^^ ·) s t = List.zipWith (· ^^^ ·) s' t' →
      crc8 c s ^^^ crc8 c t = crc8 c s' ^^^ crc8 c t') ∧
    (∀ (s s' : Bytes) (x : Byte) (k bit : Nat) (b : Byte), bit < 8 → (s ++ [crc8 c s])[k]? = some b →
      s' ++ [x] = (s ++ [crc8 c s]).set k (b ^^^ (1#8 <<< bit)) → crc8 c s' ≠ x) ∧
    ∃ (s : Bytes) (j k j' k' : Nat) (b b' : Byte), j < k ∧ j' < 8 ∧ k' < 8 ∧ s[j]? = some b ∧ s[k]? = some b' ∧
      crc8 c ((s.set j (b ^^^ (1#8 <<< j'))).set k (b' ^^^ (1#8 <<< k'))) = crc8 c s

/-- R134: CRC8. -/
def Obligations.Crc8ChecksumsTheInput : Prop :=
  encode .crc8 = 0x00000010#32 ∧
  (∀ s : State, Fits s.cfg s.req.inp.length →
    exec .crc8 s = .next
      { s with status := 0x20#32, resp := { Responses.cleared with resCrc := crc8 s.cfg s.req.inp } }) ∧
  (∀ s : State, Exceeds s.cfg s.req.inp.length →
    exec .crc8 s = .next { s with status := 0x28#32, resp := Responses.cleared }) ∧
  ∀ c : Config, c.IsHardware →
    crc8 c [] = 0x00#8 ∧ crc8 c [0x00#8] = 0xEA#8 ∧ crc8 c [0xFF#8] = 0xFF#8 ∧
    crc8 c [0x31#8, 0x32#8, 0x33#8, 0x34#8, 0x35#8, 0x36#8, 0x37#8, 0x38#8, 0x39#8] = 0xD8#8

/-- R142: MSG.BUILD, with the buffer of R140 and the length and checksum of R141. -/
def Obligations.MsgBuildFramesTheMessage : Prop :=
  (∀ dev pkt : Byte,
    encode (.msgBuild dev pkt) = 0x11#32 ||| dev.setWidth 32 <<< 8 ||| pkt.setWidth 32 <<< 16) ∧
  (∀ (dev pkt : Byte) (s : State), Fits s.cfg s.req.inp.length → s.req.inp.length ≤ 251 →
    exec (.msgBuild dev pkt) s = .next
      { s with
        status := 0x20#32
        resp :=
          { Responses.cleared with
            out :=
              stuff s.cfg
                (s.req.inp ++ [pkt, dev, BitVec.ofNat 8 (s.req.inp.length + 4)] ++
                  [crc8 s.cfg (s.req.inp ++ [pkt, dev, BitVec.ofNat 8 (s.req.inp.length + 4)])]) ++ [0x00#8] } }) ∧
  (∀ (dev pkt : Byte) (s : State), Fits s.cfg s.req.inp.length → 251 < s.req.inp.length →
    exec (.msgBuild dev pkt) s = .next { s with status := 0x25#32, resp := Responses.cleared }) ∧
  (∀ (dev pkt : Byte) (s : State), Exceeds s.cfg s.req.inp.length →
    exec (.msgBuild dev pkt) s = .next { s with status := 0x28#32, resp := Responses.cleared }) ∧
  ∀ s : State, s.cfg.IsHardware → Fits s.cfg 0 → s.req.inp = [] →
    exec (.msgBuild 0x01#8 0x02#8) s = .next
      { s with
        status := 0x20#32
        resp := { Responses.cleared with out := [0x02#8, 0x01#8, 0x04#8, 0x6D#8, 0x00#8] } }

/-- R143, as a bound (log 10): no frame that MSG.BUILD writes is longer than 511 bytes, and no payload longer than 251 is framed. -/
def Obligations.BuiltFramesAreBounded : Prop :=
  ∀ (dev pkt : Byte) (s t : State), exec (.msgBuild dev pkt) s = .next t →
    t.resp.out.length ≤ 511 ∧ (251 < s.req.inp.length → t.resp.out = [] ∧ codeOf t.status ∈ [5#4, 8#4])

/-- R144, R145, R146: MSG.PARSE, its checks in their order. -/
def Obligations.MsgParseChecksInOrder : Prop :=
  encode .msgParse = 0x00000012#32 ∧
  (∀ s : State, Exceeds s.cfg s.req.inp.length →
    exec .msgParse s = .next { s with status := 0x28#32, resp := Responses.cleared }) ∧
  (∀ s : State, Fits s.cfg s.req.inp.length →
    (destuff s.cfg s.req.inp = .error .framingError →
      exec .msgParse s = .next { s with status := 0x21#32, resp := Responses.cleared }) ∧
    (∀ d, destuff s.cfg s.req.inp = .ok d → d.length ≤ 3 →
      exec .msgParse s = .next { s with status := 0x22#32, resp := Responses.cleared }) ∧
    ∀ (payload : Bytes) (pkt dev len check : Byte),
      destuff s.cfg s.req.inp = .ok (payload ++ [pkt, dev, len, check]) →
      (len.toNat ≠ payload.length + 4 →
        exec .msgParse s = .next { s with status := 0x23#32, resp := Responses.cleared }) ∧
      (len.toNat = payload.length + 4 → crc8 s.cfg (payload ++ [pkt, dev, len]) ≠ check →
        exec .msgParse s = .next { s with status := 0x24#32, resp := Responses.cleared }) ∧
      (len.toNat = payload.length + 4 → crc8 s.cfg (payload ++ [pkt, dev, len]) = check →
        exec .msgParse s = .next
          { s with
            status := 0x20#32
            resp := { Responses.cleared with resDev := dev, resPkt := pkt, out := payload } })) ∧
  (∀ (s : State) (d : Bytes), Fits s.cfg s.req.inp.length → destuff s.cfg s.req.inp = .ok d → 255 < d.length →
    exec .msgParse s = .next { s with status := 0x23#32, resp := Responses.cleared }) ∧
  ∀ s : State, s.cfg.IsHardware → Fits s.cfg 4 → s.req.inp = [0x02#8, 0x01#8, 0x04#8, 0x6D#8] →
    exec .msgParse s = .next
      { s with status := 0x20#32, resp := { Responses.cleared with resDev := 0x01#8, resPkt := 0x02#8 } }

/-- R147: parsing what MSG.BUILD wrote, with or without its delimiter, gives back device, packet and payload. -/
def Obligations.ParseInvertsBuild : Prop :=
  ∀ (dev pkt : Byte) (s : State), s.cfg.Legal → Fits s.cfg s.req.inp.length → s.req.inp.length ≤ 251 →
    ∃ t, exec (.msgBuild dev pkt) s = .next t ∧
      ∀ frame, frame = t.resp.out ∨ t.resp.out = frame ++ [0x00#8] → Fits s.cfg frame.length →
        exec .msgParse (t.loadIn frame) = .next
          { s with
            req := { s.req with inp := frame }
            status := 0x20#32
            resp := { Responses.cleared with resDev := dev, resPkt := pkt, out := s.req.inp } }

/-- R148: one bit changed in a built message's buffer fails the length check in the length byte and the checksum
everywhere else; one bit changed in the stuffed frame can fail as the length or as the framing. -/
def Obligations.SingleBitErrorsAreCaught : Prop :=
  (∀ (dev pkt : Byte) (payload : Bytes) (s : State) (k bit : Nat) (b : Byte),
    s.cfg.Legal → payload.length ≤ 251 → bit < 8 →
    (messageBuffer s.cfg dev pkt payload)[k]? = some b →
    s.req.inp = stuff s.cfg ((messageBuffer s.cfg dev pkt payload).set k (b ^^^ (1#8 <<< bit))) ++ [0x00#8] →
    Fits s.cfg s.req.inp.length →
    (k = payload.length + 2 → exec .msgParse s = .next { s with status := 0x23#32, resp := Responses.cleared }) ∧
    (k ≠ payload.length + 2 → exec .msgParse s = .next { s with status := 0x24#32, resp := Responses.cleared })) ∧
  ∀ s : State, s.cfg.IsHardware → Fits s.cfg 10 →
    stuff s.cfg (messageBuffer s.cfg 0x0D#8 0x03#8 [0x00#8, 0x00#8, 0xA0#8, 0x41#8]) =
      [0x7D#8, 0x20#8, 0x7D#8, 0x20#8, 0xA0#8, 0x41#8, 0x03#8, 0x0D#8, 0x08#8, 0x42#8] ∧
    (s.req.inp = [0x7D#8 ^^^ 0x01#8, 0x20#8, 0x7D#8, 0x20#8, 0xA0#8, 0x41#8, 0x03#8, 0x0D#8, 0x08#8, 0x42#8] →
      exec .msgParse s = .next { s with status := 0x23#32, resp := Responses.cleared }) ∧
    (s.req.inp = [0x7D#8, 0x20#8 ^^^ 0x20#8, 0x7D#8, 0x20#8, 0xA0#8, 0x41#8, 0x03#8, 0x0D#8, 0x08#8, 0x42#8] →
      exec .msgParse s = .next { s with status := 0x21#32, resp := Responses.cleared })

/-- R149: a different length byte in a built message's buffer gives LengthMismatch. -/
def Obligations.LengthTamperIsCaught : Prop :=
  ∀ (dev pkt len : Byte) (payload : Bytes) (s : State),
    s.cfg.Legal → payload.length ≤ 251 → len ≠ BitVec.ofNat 8 (payload.length + 4) →
    s.req.inp = stuff s.cfg ((messageBuffer s.cfg dev pkt payload).set (payload.length + 2) len) ++ [0x00#8] →
    Fits s.cfg s.req.inp.length →
    exec .msgParse s = .next { s with status := 0x23#32, resp := Responses.cleared }

/-- R206: the message (0, 0, []) completes with OK, and a failed MSG.PARSE, which leaves the same RES_DEV, RES_PKT and
OUT, never does. -/
def Obligations.SuccessIsToldByTheCodeAlone : Prop :=
  (∀ s : State, s.cfg.IsHardware → Fits s.cfg 6 →
    s.req.inp = [0x7D#8, 0x20#8, 0x7D#8, 0x20#8, 0x04#8, 0x1E#8] →
    exec .msgParse s = .next { s with status := 0x20#32, resp := Responses.cleared }) ∧
  ∀ s t : State, exec .msgParse s = .next t →
    (codeOf t.status = 0#4 ↔ Fits s.cfg s.req.inp.length ∧ ∃ m, parse s.cfg s.req.inp = .ok m)

/-! ### The Float Array Codec -/

/-- R173: FLT.ENC. -/
def Obligations.FltEncSerializesTheWords : Prop :=
  encode .fltEnc = 0x00000020#32 ∧
  (∀ s : State, s.cfg.floatOrder = .littleEndian → Fits s.cfg (4 * s.req.inW.length) →
    ∃ bytes : Bytes,
      bytes = s.req.inW.flatMap (fun w =>
        [w.extractLsb' 0 8, w.extractLsb' 8 8, w.extractLsb' 16 8, w.extractLsb' 24 8]) ∧
      bytes.length = 4 * s.req.inW.length ∧
      exec .fltEnc s = .next { s with status := 0x20#32, resp := { Responses.cleared with out := bytes } }) ∧
  (∀ s : State, Exceeds s.cfg (4 * s.req.inW.length) →
    exec .fltEnc s = .next { s with status := 0x28#32, resp := Responses.cleared }) ∧
  ∀ s : State, s.cfg.floatOrder = .littleEndian → Fits s.cfg 4 → s.req.inW = [0x41A00000#32] →
    exec .fltEnc s = .next
      { s with status := 0x20#32, resp := { Responses.cleared with out := [0x00#8, 0x00#8, 0xA0#8, 0x41#8] } }

/-- R174: a serialized array is a payload for MSG.BUILD exactly up to 62 values. -/
def Obligations.SixtyTwoFloatsFitAMessage : Prop :=
  ∀ (dev pkt : Byte) (s : State), Fits s.cfg (4 * s.req.inW.length) →
    ∃ t u, exec .fltEnc s = .next t ∧ exec (.msgBuild dev pkt) (t.loadIn t.resp.out) = .next u ∧
      (s.req.inW.length ≤ 62 → codeOf u.status = 0#4) ∧ (62 < s.req.inW.length → codeOf u.status = 5#4)

/-- R175: FLT.DEC. -/
def Obligations.FltDecDeserializesTheBytes : Prop :=
  encode .fltDec = 0x00000021#32 ∧
  (∀ s : State, s.cfg.floatOrder = .littleEndian → Fits s.cfg s.req.inp.length → s.req.inp.length % 4 = 0 →
    ∃ ws : List Word,
      ws.length = s.req.inp.length / 4 ∧
      s.req.inp = ws.flatMap (fun w =>
        [w.extractLsb' 0 8, w.extractLsb' 8 8, w.extractLsb' 16 8, w.extractLsb' 24 8]) ∧
      exec .fltDec s = .next { s with status := 0x20#32, resp := { Responses.cleared with outW := ws } }) ∧
  (∀ s : State, Fits s.cfg s.req.inp.length → s.req.inp.length % 4 ≠ 0 →
    exec .fltDec s = .next { s with status := 0x26#32, resp := Responses.cleared }) ∧
  (∀ s : State, Exceeds s.cfg s.req.inp.length →
    exec .fltDec s = .next { s with status := 0x28#32, resp := Responses.cleared }) ∧
  ∀ s : State, s.cfg.floatOrder = .littleEndian → Fits s.cfg 4 →
    s.req.inp = [0x00#8, 0x00#8, 0xA0#8, 0xC1#8] →
    exec .fltDec s = .next { s with status := 0x20#32, resp := { Responses.cleared with outW := [0xC1A00000#32] } }

/-- FLT.DEC inverts FLT.ENC and FLT.ENC inverts FLT.DEC, bit for bit: R176 where FLOAT_ORDER is little-endian, which is
this hardware's value. That it is said of `bigEndian` too, which the spec does not name, is the model's choice (log 7,
PRESUMED). -/
def Obligations.FloatCodecRoundTrips : Prop :=
  (∀ s : State, Fits s.cfg (4 * s.req.inW.length) →
    ∃ t, exec .fltEnc s = .next t ∧
      exec .fltDec (t.loadIn t.resp.out) = .next
        { s with
          req := { s.req with inp := t.resp.out }
          status := 0x20#32
          resp := { Responses.cleared with outW := s.req.inW } }) ∧
  ∀ s : State, Fits s.cfg s.req.inp.length → s.req.inp.length % 4 = 0 →
    ∃ t, exec .fltDec s = .next t ∧
      exec .fltEnc (t.loadInW t.resp.outW) = .next
        { s with
          req := { s.req with inW := t.resp.outW }
          status := 0x20#32
          resp := { Responses.cleared with out := s.req.inp } }

/-! ### The receive composition -/

/-- R190: STREAM.FEED. -/
def Obligations.StreamFeedParsesEveryFrame : Prop :=
  encode .streamFeed = 0x00000030#32 ∧
  (∀ (s : State) (frames : List Bytes) (rem : Option Bytes),
    Fits s.cfg (s.req.remIn.length + s.req.inp.length) → split (s.req.remIn ++ s.req.inp) = (frames, rem) →
    exec .streamFeed s = .next
      { s with
        status := if rem = none then 0x20#32 else 0x30#32
        resp :=
          { Responses.cleared with
            results := frames.map fun f =>
              match parse s.cfg f with
              | .ok m => { code := 0#4, dev := m.dev, pkt := m.pkt, payload := m.payload }
              | .error e => { code := e.num, dev := 0x00#8, pkt := 0x00#8, payload := [] }
            remOut := rem.getD [] } }) ∧
  (∀ s : State, Exceeds s.cfg (s.req.remIn.length + s.req.inp.length) →
    exec .streamFeed s = .next { s with status := 0x28#32, resp := Responses.cleared }) ∧
  (∀ s : State, Fits s.cfg 0 → s.req.remIn = [] → s.req.inp = [] →
    exec .streamFeed s = .next { s with status := 0x20#32, resp := Responses.cleared }) ∧
  (∀ c : Config, parse c [] = .error .tooShort) ∧
  (∀ s : State, Fits s.cfg (s.req.remIn.length + s.req.inp.length) → s.req.remIn ++ s.req.inp ≠ [] →
    0x00#8 ∉ s.req.remIn ++ s.req.inp →
    exec .streamFeed s = .next
      { s with status := 0x30#32, resp := { Responses.cleared with remOut := s.req.remIn ++ s.req.inp } }) ∧
  ∀ s : State, s.cfg.IsHardware → Fits s.cfg 7 → s.req.remIn = [] →
    s.req.inp = [0x02#8, 0x01#8, 0x04#8, 0x6D#8, 0x00#8, 0x7D#8, 0x20#8] →
    exec .streamFeed s = .next
      { s with
        status := 0x30#32
        resp :=
          { Responses.cleared with
            results := [{ code := 0#4, dev := 0x01#8, pkt := 0x02#8, payload := [] }], remOut := [0x7D#8, 0x20#8] } }

/-- R194: each RESULTS entry is what MSG.PARSE of that candidate frame would complete with and return, and the frames and
the remainder are those of FRAME.SPLIT. -/
def Obligations.EntriesAreWhatMsgParseReturns : Prop :=
  ∀ s : State, Fits s.cfg (s.req.remIn.length + s.req.inp.length) →
    ∃ t v, exec .streamFeed s = .next t ∧ exec .frameSplit (s.loadIn (s.req.remIn ++ s.req.inp)) = .next v ∧
      v.status = t.status ∧ v.resp.remOut = t.resp.remOut ∧ t.resp.results.length = v.resp.frames.length ∧
      ∀ (k : Nat) (f : Bytes), v.resp.frames[k]? = some f →
        ∃ u, exec .msgParse (s.loadIn f) = .next u ∧
          t.resp.results[k]? = some
            { code := codeOf u.status, dev := u.resp.resDev, pkt := u.resp.resPkt, payload := u.resp.out }

/-- R193: however a stream is cut into chunks, the entries read and the last remainder are those of one STREAM.FEED of
the whole stream. -/
def Obligations.ChunkingDoesNotMatter : Prop :=
  ∀ (s : State) (chunks : List Bytes), s.req.remIn = [] → Fits s.cfg chunks.flatten.length →
    ∃ entries u t, feedAll s chunks = some (entries, u) ∧
      exec .streamFeed (s.loadIn chunks.flatten) = .next t ∧
      t.resp.results = entries ∧ t.resp.remOut = u.req.remIn

/-! ### Several instances -/

/-- R64: a platform step runs one instance's own step and touches no other instance. -/
def Obligations.InstancesShareNothing : Prop :=
  ∀ (p q : Platform) (k : Nat) (rest : List Nat) (s : State),
    p.schedule = k :: rest → p.instances[k]? = some s → platformStep p = .next q →
    q.schedule = rest ∧ q.instances.length = p.instances.length ∧
    (∃ t, step s = .next t ∧ q.instances[k]? = some t) ∧ ∀ j, j ≠ k → q.instances[j]? = p.instances[j]?

/-- R64, R215: under any schedule, each instance ends as if it alone had run its own steps. -/
def Obligations.SchedulesDoNotInterfere : Prop :=
  ∀ p : Platform, (∀ k ∈ p.schedule, k < p.instances.length) →
    ∃ q, platformRun p.schedule.length p = .next q ∧ q.instances.length = p.instances.length ∧
      ∀ (j : Nat) (s : State), p.instances[j]? = some s →
        ∃ t, Host.Core.run Sys2Proof.core (p.schedule.count j) s = .next t ∧ q.instances[j]? = some t
end

