-- ==== Sys2Proof/WellFormed.lean ====
section
/-! DEFINITION. Which fields make a legal command word (30_encoding.md R75, R77). The decoder of Decode.lean is written
apart from this check; Laws/Decode.lean proves that they agree. -/

namespace Sys2Proof

namespace CmdFields

/-- R75: the opcodes that have a row. -/
def assignedOpcodes : List Byte :=
  [0x01#8, 0x02#8, 0x03#8, 0x10#8, 0x11#8, 0x12#8, 0x20#8, 0x21#8, 0x30#8]

/-- R77: "every `OP` value not in rule R75" is illegal. -/
def opAssigned (f : CmdFields) : Bool := assignedOpcodes.contains f.op

/-- R77: "any word with `RSV != 0`" is illegal. -/
def rsvZero (f : CmdFields) : Bool := f.rsv == 0x00#8

/-- R77: "any word with `OP` other than `0x11` and `DEV != 0` or `PKT != 0`" is illegal. -/
def operandsAllowed (f : CmdFields) : Bool := f.op == 0x11#8 || (f.dev == 0x00#8 && f.pkt == 0x00#8)

/-- A legal command word's fields. -/
def wellFormed (f : CmdFields) : Bool := f.opAssigned && f.rsvZero && f.operandsAllowed

end CmdFields

end Sys2Proof
end

