-- ==== Sys2Proof/Laws/Decode.lean ====
section
/-! SUPPORT. The fields of a command word, and that the decoder accepts exactly the well-formed fields. -/

namespace Sys2Proof

@[simp] theorem fieldsOf_wordOf (f : CmdFields) : fieldsOf (wordOf f) = f := by
  obtain ⟨op, dev, pkt, rsv⟩ := f
  simp only [fieldsOf, wordOf, CmdFields.mk.injEq]
  refine ⟨?_, ?_, ?_, ?_⟩ <;>
    (ext i hi; interval_cases i <;> simp [BitVec.getLsbD_of_ge, BitVec.getLsbD_eq_getElem])

theorem wordOf_fieldsOf (w : Word) : wordOf (fieldsOf w) = w := by
  ext i hi
  interval_cases i <;> simp [wordOf, fieldsOf, BitVec.getLsbD_eq_getElem, BitVec.getLsbD_of_ge]

/-- A word is its four fields. -/
theorem eq_wordOf_iff (w : Word) (f : CmdFields) : w = wordOf f ↔ fieldsOf w = f :=
  ⟨fun h => by rw [h, fieldsOf_wordOf], fun h => by rw [← h, wordOf_fieldsOf]⟩

/-- The row of an opcode, as a case list. -/
theorem rowOf_eq_some {f : CmdFields} {i : Instr} (h : rowOf f = some i) :
    f.op = opcode i ∧ ∀ dev pkt, i = .msgBuild dev pkt → dev = f.dev ∧ pkt = f.pkt := by
  simp only [rowOf] at h
  split_ifs at h <;> cases h <;>
    exact ⟨by assumption, fun _ _ e => by cases e <;> exact ⟨rfl, rfl⟩⟩

/-- Inversion: a word decodes to a command exactly when its fields are that command's. -/
theorem decode_eq_ok_iff (w : Word) (i : Instr) : decode w = .ok i ↔ fieldsOf w = fieldsFor i := by
  constructor
  · intro h
    simp only [decode] at h
    rcases hr : rowOf (fieldsOf w) with _ | j
    · simp only [hr] at h; split_ifs at h
    · simp only [hr] at h
      split_ifs at h with hrsv hop
      cases h
      obtain ⟨ho, hm⟩ := rowOf_eq_some hr
      generalize fieldsOf w = f at *
      obtain ⟨op, dev, pkt, rsv⟩ := f
      simp only at ho hm hop hrsv
      push Not at hrsv hop
      subst ho hrsv
      cases i with
      | msgBuild d p => obtain ⟨rfl, rfl⟩ := hm d p rfl; rfl
      | _ => obtain ⟨rfl, rfl⟩ := hop (by decide); rfl
  · intro h
    simp only [decode, h]
    cases i <;> rfl

/-- The decoder accepts exactly the words whose fields are well formed. -/
theorem decode_ok_iff_wellFormed (w : Word) : (∃ i, decode w = .ok i) ↔ (fieldsOf w).wellFormed = true := by
  simp only [decode_eq_ok_iff]
  generalize fieldsOf w = f
  constructor
  · rintro ⟨i, rfl⟩
    cases i <;> simp [fieldsFor, CmdFields.wellFormed, CmdFields.opAssigned, CmdFields.assignedOpcodes,
      CmdFields.rsvZero, CmdFields.operandsAllowed, opcode]
  · obtain ⟨op, dev, pkt, rsv⟩ := f
    intro h
    simp only [CmdFields.wellFormed, CmdFields.opAssigned, CmdFields.assignedOpcodes, CmdFields.rsvZero,
      CmdFields.operandsAllowed, Bool.and_eq_true, List.contains_eq_mem, decide_eq_true_eq, List.mem_cons,
      List.not_mem_nil, or_false, beq_iff_eq, Bool.or_eq_true] at h
    obtain ⟨⟨hop, rfl⟩, hd⟩ := h
    rcases hop with rfl | rfl | rfl | rfl | rfl | rfl | rfl | rfl | rfl
    case inr.inr.inr.inr.inl => exact ⟨.msgBuild dev pkt, rfl⟩
    all_goals
      obtain ⟨rfl, rfl⟩ := hd.resolve_left (by decide)
    · exact ⟨.frameEnc, rfl⟩
    · exact ⟨.frameDec, rfl⟩
    · exact ⟨.frameSplit, rfl⟩
    · exact ⟨.crc8, rfl⟩
    · exact ⟨.msgParse, rfl⟩
    · exact ⟨.fltEnc, rfl⟩
    · exact ⟨.fltDec, rfl⟩
    · exact ⟨.streamFeed, rfl⟩

end Sys2Proof
end

