-- ==== Sys2Proof/Laws/State.lean ====
section
/-! SUPPORT. One lemma per field of State for each operation that updates it, so that no later proof unfolds a record
update. -/

namespace Sys2Proof.Machine.State

variable (s : State)

@[simp] theorem clearResponses_cfg : (s.clearResponses).cfg = s.cfg := rfl
@[simp] theorem clearResponses_req : (s.clearResponses).req = s.req := rfl
@[simp] theorem clearResponses_status : (s.clearResponses).status = s.status := rfl
@[simp] theorem clearResponses_resp : (s.clearResponses).resp = Responses.cleared := rfl
@[simp] theorem clearResponses_todo : (s.clearResponses).todo = s.todo := rfl
@[simp] theorem clearResponses_seen : (s.clearResponses).seen = s.seen := rfl

@[simp] theorem fail_cfg (c : Code) : (s.fail c).cfg = s.cfg := rfl
@[simp] theorem fail_req (c : Code) : (s.fail c).req = s.req := rfl
@[simp] theorem fail_status (c : Code) : (s.fail c).status = statusWord c false := rfl
@[simp] theorem fail_resp (c : Code) : (s.fail c).resp = Responses.cleared := rfl
@[simp] theorem fail_todo (c : Code) : (s.fail c).todo = s.todo := rfl
@[simp] theorem fail_seen (c : Code) : (s.fail c).seen = s.seen := rfl

@[simp] theorem succeed_cfg (r : Responses) (v : Bool) : (s.succeed r v).cfg = s.cfg := rfl
@[simp] theorem succeed_req (r : Responses) (v : Bool) : (s.succeed r v).req = s.req := rfl
@[simp] theorem succeed_status (r : Responses) (v : Bool) : (s.succeed r v).status = statusWord .ok v := rfl
@[simp] theorem succeed_resp (r : Responses) (v : Bool) : (s.succeed r v).resp = r := rfl
@[simp] theorem succeed_todo (r : Responses) (v : Bool) : (s.succeed r v).todo = s.todo := rfl
@[simp] theorem succeed_seen (r : Responses) (v : Bool) : (s.succeed r v).seen = s.seen := rfl

@[simp] theorem resetRegisters_cfg : (s.resetRegisters).cfg = s.cfg := rfl
@[simp] theorem resetRegisters_req : (s.resetRegisters).req = Requests.atReset := rfl
@[simp] theorem resetRegisters_status : (s.resetRegisters).status = 0x00000000#32 := rfl
@[simp] theorem resetRegisters_resp : (s.resetRegisters).resp = Responses.cleared := rfl
@[simp] theorem resetRegisters_todo : (s.resetRegisters).todo = s.todo := rfl
@[simp] theorem resetRegisters_seen : (s.resetRegisters).seen = s.seen := rfl

@[simp] theorem deliver_cfg (v : RegValue) : (s.deliver v).cfg = s.cfg := rfl
@[simp] theorem deliver_req (v : RegValue) : (s.deliver v).req = s.req := rfl
@[simp] theorem deliver_status (v : RegValue) : (s.deliver v).status = s.status := rfl
@[simp] theorem deliver_resp (v : RegValue) : (s.deliver v).resp = s.resp := rfl
@[simp] theorem deliver_todo (v : RegValue) : (s.deliver v).todo = s.todo := rfl
@[simp] theorem deliver_seen (v : RegValue) : (s.deliver v).seen = s.seen ++ [v] := rfl

@[simp] theorem loadIn_cfg (v : Bytes) : (s.loadIn v).cfg = s.cfg := rfl
@[simp] theorem loadIn_req (v : Bytes) : (s.loadIn v).req = { s.req with inp := v } := rfl
@[simp] theorem loadIn_status (v : Bytes) : (s.loadIn v).status = s.status := rfl
@[simp] theorem loadIn_resp (v : Bytes) : (s.loadIn v).resp = s.resp := rfl
@[simp] theorem loadIn_todo (v : Bytes) : (s.loadIn v).todo = s.todo := rfl
@[simp] theorem loadIn_seen (v : Bytes) : (s.loadIn v).seen = s.seen := rfl

@[simp] theorem loadInW_cfg (v : List Word) : (s.loadInW v).cfg = s.cfg := rfl
@[simp] theorem loadInW_req (v : List Word) : (s.loadInW v).req = { s.req with inW := v } := rfl
@[simp] theorem loadInW_status (v : List Word) : (s.loadInW v).status = s.status := rfl
@[simp] theorem loadInW_resp (v : List Word) : (s.loadInW v).resp = s.resp := rfl
@[simp] theorem loadInW_todo (v : List Word) : (s.loadInW v).todo = s.todo := rfl
@[simp] theorem loadInW_seen (v : List Word) : (s.loadInW v).seen = s.seen := rfl

@[simp] theorem loadRemIn_cfg (v : Bytes) : (s.loadRemIn v).cfg = s.cfg := rfl
@[simp] theorem loadRemIn_req (v : Bytes) : (s.loadRemIn v).req = { s.req with remIn := v } := rfl
@[simp] theorem loadRemIn_status (v : Bytes) : (s.loadRemIn v).status = s.status := rfl
@[simp] theorem loadRemIn_resp (v : Bytes) : (s.loadRemIn v).resp = s.resp := rfl
@[simp] theorem loadRemIn_todo (v : Bytes) : (s.loadRemIn v).todo = s.todo := rfl
@[simp] theorem loadRemIn_seen (v : Bytes) : (s.loadRemIn v).seen = s.seen := rfl

@[simp] theorem storeCmd_cfg (w : Word) : (s.storeCmd w).cfg = s.cfg := rfl
@[simp] theorem storeCmd_req (w : Word) : (s.storeCmd w).req = { s.req with cmd := w } := rfl
@[simp] theorem storeCmd_status (w : Word) : (s.storeCmd w).status = s.status := rfl
@[simp] theorem storeCmd_resp (w : Word) : (s.storeCmd w).resp = s.resp := rfl
@[simp] theorem storeCmd_todo (w : Word) : (s.storeCmd w).todo = s.todo := rfl
@[simp] theorem storeCmd_seen (w : Word) : (s.storeCmd w).seen = s.seen := rfl

@[simp] theorem copyRem_cfg : (s.copyRem).cfg = s.cfg := rfl
@[simp] theorem copyRem_req : (s.copyRem).req = { s.req with remIn := if remValidOf s.status then s.resp.remOut else [] } := rfl
@[simp] theorem copyRem_status : (s.copyRem).status = s.status := rfl
@[simp] theorem copyRem_resp : (s.copyRem).resp = s.resp := rfl
@[simp] theorem copyRem_todo : (s.copyRem).todo = s.todo := rfl
@[simp] theorem copyRem_seen : (s.copyRem).seen = s.seen := rfl

@[simp] theorem writeReadOnly_eq (r : ReadOnlyReg) (v : RegValue) : s.writeReadOnly r v = s := rfl

/-- Clearing twice is clearing once. -/
@[simp] theorem clearResponses_clearResponses : s.clearResponses.clearResponses = s.clearResponses := rfl

/-- What the response registers held before a failure makes no difference. -/
@[simp] theorem clearResponses_fail (c : Code) : s.clearResponses.fail c = s.fail c := rfl

/-- What the response registers held before a success makes no difference. -/
@[simp] theorem clearResponses_succeed (r : Responses) (v : Bool) : s.clearResponses.succeed r v = s.succeed r v := rfl

end Sys2Proof.Machine.State
end

