-- ==== Sys2Proof/Laws/Ops.lean ====
section
/-! SUPPORT. What the shared operations can do: the fields of the STATUS word a command writes, the capacity check, and
the running of a command. -/

namespace Sys2Proof.Machine

/-! ### STATUS -/

@[simp] theorem codeOf_statusWord (c : Code) (v : Bool) : codeOf (statusWord c v) = c.num := by
  cases c <;> cases v <;> decide

@[simp] theorem remValidOf_statusWord (c : Code) (v : Bool) : remValidOf (statusWord c v) = v := by
  cases c <;> cases v <;> decide

@[simp] theorem validOf_statusWord (c : Code) (v : Bool) : validOf (statusWord c v) = true := by
  cases c <;> cases v <;> decide

@[simp] theorem reservedOf_statusWord (c : Code) (v : Bool) : reservedOf (statusWord c v) = 0#26 := by
  cases c <;> cases v <;> decide

/-- OK alone has the number 0. -/
@[simp] theorem Code.num_eq_zero (c : Code) : c.num = 0#4 ↔ c = .ok := by
  cases c <;> decide

/-! ### The capacity check -/

theorem exceedsCapacity_iff (c : Config) (size : Nat) : exceedsCapacity c size = true ↔ Exceeds c size := by
  unfold exceedsCapacity Exceeds
  cases c.maxIn <;> simp

theorem not_exceedsCapacity_iff (c : Config) (size : Nat) : exceedsCapacity c size = false ↔ Fits c size := by
  unfold exceedsCapacity Fits
  cases c.maxIn <;> simp

/-- A smaller input fits where a larger one does. -/
theorem Fits.mono {c : Config} {m n : Nat} (h : Fits c n) (hmn : m ≤ n) : Fits c m :=
  fun bound hb => le_trans hmn (h bound hb)

theorem fits_or_exceeds (c : Config) (size : Nat) : Fits c size ∨ Exceeds c size := by
  cases h : exceedsCapacity c size
  · exact .inl ((not_exceedsCapacity_iff c size).1 h)
  · exact .inr ((exceedsCapacity_iff c size).1 h)

/-! ### Running a command -/

variable {size : Nat} {body : State → Except Code (Responses × Bool)} {s t : State}

theorem runCommand_exceeds (h : Exceeds s.cfg size) : runCommand size body s = .next (s.fail .capacityExceeded) := by
  have h' : exceedsCapacity s.clearResponses.cfg size = true := (exceedsCapacity_iff _ _).2 h
  simp only [runCommand, h', if_true, State.clearResponses_fail]

theorem runCommand_error (h : Fits s.cfg size) {c : Code} (hb : body s.clearResponses = .error c) :
    runCommand size body s = .next (s.fail c) := by
  have h' : exceedsCapacity s.cfg size = false := (not_exceedsCapacity_iff _ _).2 h
  simp [runCommand, h', hb]

theorem runCommand_ok (h : Fits s.cfg size) {r : Responses} {v : Bool} (hb : body s.clearResponses = .ok (r, v)) :
    runCommand size body s = .next (s.succeed r v) := by
  have h' : exceedsCapacity s.cfg size = false := (not_exceedsCapacity_iff _ _).2 h
  simp [runCommand, h', hb]

/-- Everything a command can do: exceed the capacity, raise a code of its body, or complete with its body's response
registers. -/
theorem runCommand_cases (h : runCommand size body s = .next t) :
    (Exceeds s.cfg size ∧ t = s.fail .capacityExceeded) ∨
    (Fits s.cfg size ∧ ∃ c, body s.clearResponses = .error c ∧ t = s.fail c) ∨
    (Fits s.cfg size ∧ ∃ r v, body s.clearResponses = .ok (r, v) ∧ t = s.succeed r v) := by
  rcases fits_or_exceeds s.cfg size with hf | he
  · cases hb : body s.clearResponses with
    | error c =>
      rw [runCommand_error hf hb] at h
      exact .inr (.inl ⟨hf, c, rfl, by cases h; rfl⟩)
    | ok p =>
      obtain ⟨r, v⟩ := p
      rw [runCommand_ok hf hb] at h
      exact .inr (.inr ⟨hf, r, v, rfl, by cases h; rfl⟩)
  · rw [runCommand_exceeds he] at h
    exact .inl ⟨he, by cases h; rfl⟩

/-- A command always completes. -/
theorem runCommand_next (size : Nat) (body : State → Except Code (Responses × Bool)) (s : State) :
    ∃ t, runCommand size body s = .next t := by
  rcases fits_or_exceeds s.cfg size with hf | he
  · cases hb : body s.clearResponses with
    | error c => exact ⟨_, runCommand_error hf hb⟩
    | ok p => exact ⟨_, runCommand_ok hf hb⟩
  · exact ⟨_, runCommand_exceeds he⟩

/-- A command changes STATUS and the response registers, and nothing else. -/
theorem runCommand_frame (h : runCommand size body s = .next t) :
    t = { s with status := t.status, resp := t.resp } := by
  obtain ⟨-, rfl⟩ | ⟨-, c, -, rfl⟩ | ⟨-, r, v, -, rfl⟩ := runCommand_cases h <;> rfl

end Sys2Proof.Machine
end

