-- ==== Sys2Proof/Laws/Float.lean ====
section
/-! SUPPORT. The bytes of a word and the word of four bytes, and serializing and deserializing sequences. -/

namespace Sys2Proof.Machine

@[simp] theorem bytesOf_length (order : FloatOrder) (w : Word) : (bytesOf order w).length = 4 := by
  cases order <;> rfl

theorem serializeWords_length (order : FloatOrder) (ws : List Word) :
    (serializeWords order ws).length = 4 * ws.length := by
  induction ws with
  | nil => rfl
  | cons w ws ih => simp [serializeWords, ih]; omega

theorem wordLe_bytes (w : Word) :
    wordLe (w.extractLsb' 0 8) (w.extractLsb' 8 8) (w.extractLsb' 16 8) (w.extractLsb' 24 8) = w := by
  ext i hi
  interval_cases i <;> simp [wordLe, BitVec.getLsbD_eq_getElem, BitVec.getLsbD_of_ge]

theorem bytesLe_wordLe (a b c d : Byte) : bytesLe (wordLe a b c d) = [a, b, c, d] := by
  simp only [bytesLe, wordLe, List.cons.injEq, and_true]
  refine ⟨?_, ?_, ?_, ?_⟩ <;>
    (ext i hi; interval_cases i <;> simp [BitVec.getLsbD_of_ge, BitVec.getLsbD_eq_getElem])

theorem bytesOf_wordOfBytes (order : FloatOrder) (a b c d : Byte) :
    bytesOf order (wordOfBytes order a b c d) = [a, b, c, d] := by
  cases order <;> simp [bytesOf, wordOfBytes, bytesLe_wordLe]

/-- A word's four bytes, and the word they make. -/
theorem bytesOf_cases (order : FloatOrder) (w : Word) :
    ∃ a b c d, bytesOf order w = [a, b, c, d] ∧ wordOfBytes order a b c d = w := by
  cases order
  · exact ⟨_, _, _, _, rfl, wordLe_bytes w⟩
  · exact ⟨_, _, _, _, rfl, wordLe_bytes w⟩

theorem deserializeWords_serializeWords (order : FloatOrder) (ws : List Word) :
    deserializeWords order (serializeWords order ws) = ws := by
  induction ws with
  | nil => rfl
  | cons w ws ih =>
    obtain ⟨a, b, c, d, h, hw⟩ := bytesOf_cases order w
    simp [serializeWords, h, deserializeWords, hw, ih]

theorem serializeWords_deserializeWords (order : FloatOrder) : ∀ (s : Bytes), s.length % 4 = 0 →
    serializeWords order (deserializeWords order s) = s
  | [], _ => rfl
  | [_], h | [_, _], h | [_, _, _], h => absurd h (by simp)
  | a :: b :: c :: d :: s, h => by
    simp only [List.length_cons] at h
    simp [deserializeWords, serializeWords, bytesOf_wordOfBytes,
      serializeWords_deserializeWords order s (by omega)]

end Sys2Proof.Machine
end

