-- ==== Sys2Proof/Laws/Framer.lean ====
section
/-! SUPPORT. Stuffing, destuffing and splitting: how each runs over a concatenation. -/

namespace Sys2Proof.Machine

variable (c : Config)

/-! ### Stuffing -/

@[simp] theorem stuff_nil : stuff c [] = [] := rfl

theorem stuff_cons_special {b : Byte} (h : b = Config.delim ∨ b = c.esc) (s : Bytes) :
    stuff c (b :: s) = c.esc :: (b ^^^ c.mask) :: stuff c s := by
  simp [stuff, h]

theorem stuff_cons_plain {b : Byte} (h : ¬(b = Config.delim ∨ b = c.esc)) (s : Bytes) :
    stuff c (b :: s) = b :: stuff c s := by
  simp [stuff, h]

theorem stuff_append (s t : Bytes) : stuff c (s ++ t) = stuff c s ++ stuff c t := by
  induction s with
  | nil => rfl
  | cons b s ih =>
    by_cases h : b = Config.delim ∨ b = c.esc
    · simp [stuff_cons_special c h, ih]
    · simp [stuff_cons_plain c h, ih]

/-! ### Destuffing -/

variable {c}

/-- R10 makes both escaped codes non-zero and different. -/
theorem legal_codes (hc : c.Legal) :
    Config.delim ^^^ c.mask ≠ Config.delim ∧ c.esc ^^^ c.mask ≠ Config.delim ∧
      c.esc ^^^ c.mask ≠ Config.delim ^^^ c.mask := by
  obtain ⟨h1, h2, h3⟩ := hc
  simp only [Config.delim] at *
  refine ⟨?_, ?_, ?_⟩
  · simpa using h2
  · intro h; exact h3 ((BitVec.xor_eq_zero_iff.1 h).symm)
  · intro h; exact h1 (by simpa using h)

theorem destuffBody_plain {b : Byte} (h1 : b ≠ Config.delim) (h2 : b ≠ c.esc) (s : Bytes) :
    destuffBody c (b :: s) = (destuffBody c s).map (b :: ·) := by
  rw [destuffBody.eq_def]; simp [h1, h2]

theorem destuffBody_delim (s : Bytes) : destuffBody c (Config.delim :: s) = .error .framingError := by
  rw [destuffBody.eq_def]; simp

theorem destuffBody_esc_nil : destuffBody c [c.esc] = .error .framingError := by
  rw [destuffBody.eq_def]; simp

theorem destuffBody_esc_delim (hc : c.Legal) (s : Bytes) :
    destuffBody c (c.esc :: (Config.delim ^^^ c.mask) :: s) = (destuffBody c s).map (Config.delim :: ·) := by
  rw [destuffBody.eq_def]; simp [hc.1]

theorem destuffBody_esc_esc (hc : c.Legal) (s : Bytes) :
    destuffBody c (c.esc :: (c.esc ^^^ c.mask) :: s) = (destuffBody c s).map (c.esc :: ·) := by
  rw [destuffBody.eq_def]; simp [hc.1, (legal_codes hc).2.2]

theorem destuffBody_esc_bad (hc : c.Legal) {e : Byte} (h1 : e ≠ Config.delim ^^^ c.mask)
    (h2 : e ≠ c.esc ^^^ c.mask) (s : Bytes) : destuffBody c (c.esc :: e :: s) = .error .framingError := by
  rw [destuffBody.eq_def]; simp [hc.1, h1, h2]

/-- The scan reads a stuffed part back and goes on with what follows it. -/
theorem destuffBody_stuff_append (hc : c.Legal) (s t : Bytes) :
    destuffBody c (stuff c s ++ t) = (destuffBody c t).map (s ++ ·) := by
  induction s with
  | nil => cases h : destuffBody c t <;> simp [h, Except.map]
  | cons b s ih =>
    by_cases h : b = Config.delim ∨ b = c.esc
    · rw [stuff_cons_special c h]
      rcases h with rfl | rfl
      · rw [List.cons_append, List.cons_append, destuffBody_esc_delim hc, ih]
        cases destuffBody c t <;> rfl
      · rw [List.cons_append, List.cons_append, destuffBody_esc_esc hc, ih]
        cases destuffBody c t <;> rfl
    · rw [stuff_cons_plain c h]
      push Not at h
      rw [List.cons_append, destuffBody_plain h.1 h.2, ih]
      cases destuffBody c t <;> rfl

/-- Where a scan stops (R105): a delimiter, an escape byte with nothing after it, or an invalid code. -/
def Malformed (c : Config) (rest : Bytes) : Prop :=
  (∃ tail, rest = Config.delim :: tail) ∨ rest = [c.esc] ∨
    ∃ e tail, rest = c.esc :: e :: tail ∧ e ≠ Config.delim ^^^ c.mask ∧ e ≠ c.esc ^^^ c.mask

theorem destuffBody_malformed (hc : c.Legal) {rest : Bytes} (h : Malformed c rest) :
    destuffBody c rest = .error .framingError := by
  obtain ⟨tail, rfl⟩ | rfl | ⟨e, tail, rfl, h1, h2⟩ := h
  · exact destuffBody_delim tail
  · exact destuffBody_esc_nil
  · exact destuffBody_esc_bad hc h1 h2 tail

/-- Everything a scan can do: read a whole stuffed buffer back, or meet a malformed rest after a stuffed part. -/
theorem destuffBody_cases (hc : c.Legal) : ∀ f : Bytes,
    (∃ s, destuffBody c f = .ok s ∧ f = stuff c s) ∨
    (destuffBody c f = .error .framingError ∧ ∃ s rest, f = stuff c s ++ rest ∧ Malformed c rest)
  | [] => .inl ⟨[], by rw [destuffBody.eq_def], rfl⟩
  | b :: f => by
    have stop : Malformed c (b :: f) → destuffBody c (b :: f) = .error .framingError ∧
        ∃ s rest, b :: f = stuff c s ++ rest ∧ Malformed c rest :=
      fun h => ⟨destuffBody_malformed hc h, [], b :: f, rfl, h⟩
    by_cases hd : b = Config.delim
    · exact .inr (stop (.inl ⟨f, by rw [hd]⟩))
    by_cases he : b = c.esc
    · subst he
      match f with
      | [] => exact .inr (stop (.inr (.inl rfl)))
      | e :: f =>
        by_cases h1 : e = Config.delim ^^^ c.mask
        · subst h1
          have hs : ∀ s, stuff c (Config.delim :: s) = c.esc :: (Config.delim ^^^ c.mask) :: stuff c s :=
            stuff_cons_special c (.inl rfl)
          rw [destuffBody_esc_delim hc]
          obtain ⟨s, h, rfl⟩ | ⟨h, s, rest, rfl, hm⟩ := destuffBody_cases hc f
          · exact .inl ⟨Config.delim :: s, by rw [h]; rfl, (hs s).symm⟩
          · exact .inr ⟨by rw [h]; rfl, Config.delim :: s, rest, by rw [hs]; rfl, hm⟩
        by_cases h2 : e = c.esc ^^^ c.mask
        · subst h2
          have hs : ∀ s, stuff c (c.esc :: s) = c.esc :: (c.esc ^^^ c.mask) :: stuff c s :=
            stuff_cons_special c (.inr rfl)
          rw [destuffBody_esc_esc hc]
          obtain ⟨s, h, rfl⟩ | ⟨h, s, rest, rfl, hm⟩ := destuffBody_cases hc f
          · exact .inl ⟨c.esc :: s, by rw [h]; rfl, (hs s).symm⟩
          · exact .inr ⟨by rw [h]; rfl, c.esc :: s, rest, by rw [hs]; rfl, hm⟩
        exact .inr (stop (.inr (.inr ⟨e, f, rfl, h1, h2⟩)))
    · have hs : ∀ s, stuff c (b :: s) = b :: stuff c s := stuff_cons_plain c (by tauto)
      rw [destuffBody_plain hd he]
      obtain ⟨s, h, rfl⟩ | ⟨h, s, rest, rfl, hm⟩ := destuffBody_cases hc f
      · exact .inl ⟨b :: s, by rw [h]; rfl, (hs s).symm⟩
      · exact .inr ⟨by rw [h]; rfl, b :: s, rest, by rw [hs]; rfl, hm⟩

/-- The scan raises no code but FramingError. -/
theorem destuffBody_error {f : Bytes} {e : Code} (h : destuffBody c f = .error e) : e = .framingError := by
  induction f using destuffBody.induct c <;> rw [destuffBody.eq_def] at h <;> simp_all [Except.map]
  all_goals split at h <;> simp_all

theorem destuff_error {f : Bytes} {e : Code} (h : destuff c f = .error e) : e = .framingError :=
  destuffBody_error h

/-! ### The trailing delimiter -/

/-- Destuffing reads ESC and MASK alone, so no capacity makes a difference. -/
@[simp] theorem destuffBody_withMaxIn (c : Config) (m : Option Nat) (s : Bytes) :
    destuffBody { c with maxIn := m } s = destuffBody c s := by
  induction s using destuffBody.induct c with
  | case1 => rfl
  | _ => rw [destuffBody.eq_def, destuffBody.eq_def c]; simp [*]

@[simp] theorem destuff_withMaxIn (c : Config) (m : Option Nat) (f : Bytes) :
    destuff { c with maxIn := m } f = destuff c f :=
  destuffBody_withMaxIn c m _

@[simp] theorem stuff_withMaxIn (c : Config) (m : Option Nat) (s : Bytes) :
    stuff { c with maxIn := m } s = stuff c s := by
  induction s with
  | nil => rfl
  | cons b s ih => simp only [stuff, ih]

theorem stripDelim_concat (f : Bytes) : stripDelim (f ++ [Config.delim]) = f := by
  simp [stripDelim]

theorem stripDelim_of_not_mem {f : Bytes} (h : Config.delim ∉ f) : stripDelim f = f := by
  rw [stripDelim, if_neg]
  exact fun hl => h (List.mem_of_getLast? hl)

theorem delim_not_mem_stuff (hc : c.Legal) (s : Bytes) : Config.delim ∉ stuff c s := by
  induction s with
  | nil => simp
  | cons b s ih =>
    by_cases h : b = Config.delim ∨ b = c.esc
    · rw [stuff_cons_special c h]
      obtain ⟨h1, h2, -⟩ := legal_codes hc
      simp only [List.mem_cons, not_or]
      refine ⟨hc.1.symm, ?_, ih⟩
      rcases h with rfl | rfl
      · exact h1.symm
      · exact h2.symm
    · rw [stuff_cons_plain c h]
      push Not at h
      simp only [List.mem_cons, not_or]
      exact ⟨h.1.symm, ih⟩

/-! ### Splitting -/

theorem splitLoop_undelimited (cur : Bytes) {s : Bytes} (h : Config.delim ∉ s) : splitLoop cur s = ([], cur ++ s) := by
  induction s generalizing cur with
  | nil => simp [splitLoop]
  | cons b s ih =>
    simp only [List.mem_cons, not_or] at h
    simp [splitLoop, Ne.symm h.1, ih _ h.2]

theorem splitLoop_frame (cur : Bytes) {f : Bytes} (h : Config.delim ∉ f) (s : Bytes) :
    splitLoop cur (f ++ Config.delim :: s) = ((cur ++ f) :: (splitLoop [] s).1, (splitLoop [] s).2) := by
  induction f generalizing cur with
  | nil => simp [splitLoop]
  | cons b f ih =>
    simp only [List.mem_cons, not_or] at h
    simp [splitLoop, Ne.symm h.1, ih _ h.2]

/-- The loop reads frames back from the buffer that joins them. -/
theorem splitLoop_join {frames : List Bytes} {rest : Bytes} (hf : ∀ f ∈ frames, Config.delim ∉ f)
    (hr : Config.delim ∉ rest) :
    splitLoop [] (frames.flatMap (· ++ [Config.delim]) ++ rest) = (frames, rest) := by
  induction frames with
  | nil => simpa using splitLoop_undelimited [] hr
  | cons f frames ih =>
    simp only [List.forall_mem_cons] at hf
    simp [splitLoop_frame [] hf.1, ih hf.2]

/-- What the loop gives joins to its buffer, and no part of it holds a delimiter. -/
theorem splitLoop_spec (cur s : Bytes) (hcur : Config.delim ∉ cur) :
    cur ++ s = (splitLoop cur s).1.flatMap (· ++ [Config.delim]) ++ (splitLoop cur s).2 ∧
    (∀ f ∈ (splitLoop cur s).1, Config.delim ∉ f) ∧ Config.delim ∉ (splitLoop cur s).2 := by
  induction s generalizing cur with
  | nil => simp [splitLoop, hcur]
  | cons b s ih =>
    by_cases h : b = Config.delim
    · subst h
      obtain ⟨h1, h2, h3⟩ := ih [] (by simp)
      simp only [List.nil_append] at h1
      refine ⟨?_, ?_, ?_⟩
      · simp only [splitLoop, if_true, List.flatMap_cons, List.append_assoc, List.singleton_append]
        rw [List.cons_append, ← h1]
      · simpa [splitLoop, hcur] using h2
      · simpa [splitLoop] using h3
    · have := ih (cur ++ [b]) (by simp [hcur, Ne.symm h])
      simpa [splitLoop, h] using this

/-- `split` in the terms of its loop: the remainder is what the loop leaves, if it leaves anything. -/
theorem split_eq (s : Bytes) :
    split s = ((splitLoop [] s).1, if (splitLoop [] s).2 = [] then none else some (splitLoop [] s).2) := by
  obtain ⟨h1, -, h3⟩ := splitLoop_spec [] s (by simp)
  rcases hs : splitLoop [] s with ⟨frames, rest⟩
  rw [hs] at h1 h3
  simp only [List.nil_append] at h1 h3 ⊢
  unfold split
  by_cases hnil : s = []
  · subst hnil
    cases hs
    simp
  rw [if_neg hnil, hs]
  by_cases hr : rest = []
  · subst hr
    have hlast : s.getLast? = some Config.delim := by
      rw [h1, List.append_nil] at hnil ⊢
      rcases List.eq_nil_or_concat frames with rfl | ⟨l, f, rfl⟩
      · exact absurd rfl hnil
      · simp [List.flatMap_append]
    simp [hlast]
  · have hlast : s.getLast? ≠ some Config.delim := by
      rw [h1, List.getLast?_append_of_ne_nil _ hr]
      exact fun h => h3 (List.mem_of_getLast? h)
    simp [hlast, hr]

end Sys2Proof.Machine
end

