-- ==== Sys2Proof/Laws/Trailer.lean ====
section
/-! SUPPORT. The CRC over a concatenation, its linearity and injectivity, and the trailer checks on a decoded buffer in
the shape payload and four bytes. -/

namespace Sys2Proof.Machine

/-! ### The CRC register -/

theorem crcRegister_append (reflect : Bool) (r : Byte) (s t : Bytes) :
    crcRegister reflect r (s ++ t) = crcRegister reflect (crcRegister reflect r s) t := by
  induction s generalizing r with
  | nil => rfl
  | cons b s ih => exact ih _

/-- A shift is linear over XOR. -/
theorem crcShift_xor (reflect : Bool) (a b : Byte) :
    crcShift reflect (a ^^^ b) = crcShift reflect a ^^^ crcShift reflect b := by
  have e : ∀ x y p : Byte, (x ^^^ p) ^^^ (y ^^^ p) = x ^^^ y := fun x y p => by
    rw [BitVec.xor_comm y p, ← BitVec.xor_assoc, BitVec.xor_assoc x, BitVec.xor_self, BitVec.xor_zero]
  cases reflect
  · simp only [crcShift, BitVec.getLsbD_xor, BitVec.shiftLeft_xor_distrib]
    cases a.getLsbD 7 <;> cases b.getLsbD 7 <;> simp [e] <;> ac_rfl
  · simp only [crcShift, BitVec.getLsbD_xor, BitVec.ushiftRight_xor_distrib]
    cases a.getLsbD 0 <;> cases b.getLsbD 0 <;> simp [e] <;> ac_rfl

theorem crcShifts_xor (reflect : Bool) (n : Nat) (a b : Byte) :
    crcShifts reflect n (a ^^^ b) = crcShifts reflect n a ^^^ crcShifts reflect n b := by
  induction n generalizing a b with
  | zero => rfl
  | succ n ih => rw [crcShifts, crcShift_xor, ih]; rfl

/-- One byte of the CRC is linear over XOR, in the register and the byte together. -/
theorem crcByte_xor (reflect : Bool) (r r' b b' : Byte) :
    crcByte reflect (r ^^^ r') (b ^^^ b') = crcByte reflect r b ^^^ crcByte reflect r' b' := by
  simp only [crcByte]
  rw [← crcShifts_xor]
  congr 1
  ac_rfl

/-- The register over the XOR of two sequences of one length. -/
theorem crcRegister_xor (reflect : Bool) : ∀ (s t : Bytes) (r r' : Byte), s.length = t.length →
    crcRegister reflect (r ^^^ r') (List.zipWith (· ^^^ ·) s t) =
      crcRegister reflect r s ^^^ crcRegister reflect r' t
  | [], [], _, _, _ => rfl
  | b :: s, b' :: t, r, r', h => by
    simp only [List.zipWith_cons_cons, crcRegister, crcByte_xor]
    exact crcRegister_xor reflect s t _ _ (by simpa using h)

/-- The generator has a non-zero constant term, so a shift loses nothing: only 0 shifts to 0. -/
theorem crcShift_eq_zero : ∀ (reflect : Bool) (r : Byte), crcShift reflect r = 0x00#8 → r = 0x00#8 := by
  decide

theorem crcShifts_eq_zero (reflect : Bool) (n : Nat) (r : Byte) (h : crcShifts reflect n r = 0x00#8) :
    r = 0x00#8 := by
  induction n generalizing r with
  | zero => exact h
  | succ n ih => exact crcShift_eq_zero _ _ (ih _ h)

/-- One byte of the CRC is injective in the register XOR the byte. -/
theorem crcByte_inj {reflect : Bool} {r r' b b' : Byte} (h : crcByte reflect r b = crcByte reflect r' b') :
    r ^^^ b = r' ^^^ b' := by
  have h0 : crcShifts reflect 8 ((r ^^^ b) ^^^ (r' ^^^ b')) = 0x00#8 := by
    rw [crcShifts_xor]; exact BitVec.xor_eq_zero_iff.2 h
  exact BitVec.xor_eq_zero_iff.1 (crcShifts_eq_zero _ _ _ h0)

/-- The register after a byte sequence is injective in the register before it. -/
theorem crcRegister_inj {reflect : Bool} (s : Bytes) {r r' : Byte}
    (h : crcRegister reflect r s = crcRegister reflect r' s) : r = r' := by
  induction s generalizing r r' with
  | nil => exact h
  | cons b s ih => exact (BitVec.xor_left_inj _).1 (crcByte_inj (ih h))

/-- Two sequences that differ in one byte have different checksums. -/
theorem crc8_ne_of_byte_ne (c : Config) (s t : Bytes) {b b' : Byte} (h : b ≠ b') :
    crc8 c (s ++ b :: t) ≠ crc8 c (s ++ b' :: t) := by
  intro he
  apply h
  have he' := (BitVec.xor_left_inj _).1 he
  rw [crcRegister_append, crcRegister_append] at he'
  exact (BitVec.xor_right_inj _).1 (crcByte_inj (crcRegister_inj t he'))

/-! ### The trailer checks -/

/-- A buffer of more than 3 bytes is a payload and four bytes. -/
theorem exists_trailer {d : Bytes} (h : 3 < d.length) :
    ∃ (payload : Bytes) (pkt dev len check : Byte), d = payload ++ [pkt, dev, len, check] := by
  refine ⟨d.take (d.length - 4), d[d.length - 4], d[d.length - 3], d[d.length - 2], d[d.length - 1], ?_⟩
  conv_lhs => rw [← List.take_append_drop (d.length - 4) d]
  congr 1
  apply List.ext_getElem
  · simp; omega
  · intro n h1 h2
    simp only [List.length_drop, List.length_cons, List.length_nil] at h1 h2
    simp only [List.getElem_drop]
    have : n = 0 ∨ n = 1 ∨ n = 2 ∨ n = 3 := by omega
    rcases this with rfl | rfl | rfl | rfl <;> simp <;> congr 1 <;> omega

theorem checkDecoded_short (c : Config) {d : Bytes} (h : d.length ≤ 3) : checkDecoded c d = .error .tooShort := by
  rw [checkDecoded, if_pos (by omega)]

/-- R144's checks on a payload and its trailer. -/
theorem checkDecoded_trailer (c : Config) (payload : Bytes) (pkt dev len check : Byte) :
    checkDecoded c (payload ++ [pkt, dev, len, check]) =
      if len.toNat ≠ payload.length + 4 then .error .lengthMismatch
      else if crc8 c (payload ++ [pkt, dev, len]) ≠ check then .error .checksumMismatch
      else .ok { dev := dev, pkt := pkt, payload := payload } := by
  have h1 : fromEnd (payload ++ [pkt, dev, len, check]) 1 = check := by simp [fromEnd]
  have h2 : fromEnd (payload ++ [pkt, dev, len, check]) 2 = len := by simp [fromEnd]
  have h3 : fromEnd (payload ++ [pkt, dev, len, check]) 3 = dev := by simp [fromEnd]
  have h4 : fromEnd (payload ++ [pkt, dev, len, check]) 4 = pkt := by simp [fromEnd]
  have h5 : upToEnd (payload ++ [pkt, dev, len, check]) 1 = payload ++ [pkt, dev, len] := by
    simp [upToEnd, List.take_append]
  have h6 : upToEnd (payload ++ [pkt, dev, len, check]) 4 = payload := by
    simp [upToEnd]
  rw [checkDecoded, h1, h2, h3, h4, h5, h6, if_neg (by simp)]
  simp

/-- A built message's buffer, as payload and trailer. -/
theorem messageBuffer_eq (c : Config) (dev pkt : Byte) (payload : Bytes) :
    messageBuffer c dev pkt payload =
      payload ++ [pkt, dev, BitVec.ofNat 8 (payload.length + 4),
        crc8 c (payload ++ [pkt, dev, BitVec.ofNat 8 (payload.length + 4)])] := by
  simp [messageBuffer, checkedSpan, Config.trailerLen]

/-- Parsing reads ESC, MASK and the CRC's parameters alone. -/
@[simp] theorem parse_withMaxIn (c : Config) (m : Option Nat) (f : Bytes) :
    parse { c with maxIn := m } f = parse c f := by
  simp only [parse, destuff_withMaxIn]
  rfl

/-- A failed parse never has the code OK. -/
theorem parse_error_ne_ok {c : Config} {f : Bytes} {e : Code} (h : parse c f = .error e) :
    e ∈ [Code.framingError, .tooShort, .lengthMismatch, .checksumMismatch] := by
  unfold parse at h
  split at h
  · next e' he =>
    cases h
    simp [destuff_error he]
  · next d hd =>
    unfold checkDecoded at h
    split_ifs at h <;> cases h <;> simp

/-- A parsed message's payload is at most 251 bytes. -/
theorem parse_payload_length {c : Config} {f : Bytes} {m : Message} (h : parse c f = .ok m) :
    m.payload.length ≤ 251 := by
  unfold parse at h
  split at h
  · cases h
  · next d hd =>
    by_cases hl : d.length ≤ 3
    · rw [checkDecoded_short c hl] at h; cases h
    obtain ⟨p, pkt, dev, len, check, rfl⟩ := exists_trailer (Nat.lt_of_not_le hl)
    rw [checkDecoded_trailer] at h
    split_ifs at h with h1
    cases h
    have := len.isLt
    simp only
    push Not at h1
    omega

end Sys2Proof.Machine
end

