-- ==== Sys2Proof/Laws/Exec.lean ====
section
/-! SUPPORT. Every command is one `runCommand`: its input size and its body, and what its body answers. Proofs about exec
go through these and `runCommand_cases` rather than unfold a meaning. -/

namespace Sys2Proof.Machine

/-- R59: the input size of each command. -/
def commandSize (i : Instr) (s : State) : Nat :=
  match i with
  | .fltEnc => s.inWSize
  | .streamFeed => s.feedSize
  | .frameEnc | .frameDec | .frameSplit | .crc8 | .msgBuild _ _ | .msgParse | .fltDec => s.inSize

/-- The pseudocode of each command. -/
def commandBody : Instr → State → Except Code (Responses × Bool)
  | .frameEnc => frameEncBody
  | .frameDec => frameDecBody
  | .frameSplit => frameSplitBody
  | .crc8 => crc8Body
  | .msgBuild dev pkt => msgBuildBody dev pkt
  | .msgParse => msgParseBody
  | .fltEnc => fltEncBody
  | .fltDec => fltDecBody
  | .streamFeed => streamFeedBody

theorem exec_eq_runCommand (i : Instr) (s : State) : exec i s = runCommand (commandSize i s) (commandBody i) s := by
  cases i <;> rfl

/-- Everything a decoded command can do. -/
theorem exec_cases {i : Instr} {s t : State} (h : exec i s = .next t) :
    (Exceeds s.cfg (commandSize i s) ∧ t = s.fail .capacityExceeded) ∨
    (Fits s.cfg (commandSize i s) ∧ ∃ c, commandBody i s.clearResponses = .error c ∧ t = s.fail c) ∨
    (Fits s.cfg (commandSize i s) ∧ ∃ r v, commandBody i s.clearResponses = .ok (r, v) ∧ t = s.succeed r v) :=
  runCommand_cases (exec_eq_runCommand i s ▸ h)

/-- The codes a command's own checks raise (R201). -/
theorem commandBody_error {i : Instr} {s : State} {c : Code} (h : commandBody i s = .error c) :
    (i = .frameDec ∧ c = .framingError) ∨
    ((∃ dev pkt, i = .msgBuild dev pkt) ∧ c = .payloadTooLarge) ∨
    (i = .msgParse ∧ c ∈ [Code.framingError, .tooShort, .lengthMismatch, .checksumMismatch]) ∨
    (i = .fltDec ∧ c = .invalidLength) := by
  cases i with
  | frameEnc | crc8 | fltEnc => cases h
  | frameDec =>
    simp only [commandBody, frameDecBody] at h
    split at h
    · next e he => cases h; exact .inl ⟨rfl, destuff_error he⟩
    · cases h
  | frameSplit | streamFeed =>
    simp only [commandBody, frameSplitBody, streamFeedBody] at h
    split at h <;> cases h
  | msgBuild dev pkt =>
    simp only [commandBody, msgBuildBody] at h
    split at h <;> cases h
    exact .inr (.inl ⟨⟨dev, pkt, rfl⟩, rfl⟩)
  | msgParse =>
    simp only [commandBody, msgParseBody] at h
    split at h
    · next e he => cases h; exact .inr (.inr (.inl ⟨rfl, parse_error_ne_ok he⟩))
    · cases h
  | fltDec =>
    simp only [commandBody, fltDecBody] at h
    split at h <;> cases h
    exact .inr (.inr (.inr ⟨rfl, rfl⟩))

/-- What each command's body answers when it raises nothing: the registers its rule names, and REM_VALID. -/
theorem commandBody_ok {i : Instr} {s : State} {r : Responses} {v : Bool} (h : commandBody i s = .ok (r, v)) :
    match i with
    | .frameEnc => r = { s.resp with out := frameOf s.cfg s.req.inp } ∧ v = false
    | .frameDec => ∃ buffer, destuff s.cfg s.req.inp = .ok buffer ∧ r = { s.resp with out := buffer } ∧ v = false
    | .frameSplit =>
      r = { s.resp with frames := (split s.req.inp).1, remOut := (split s.req.inp).2.getD s.resp.remOut } ∧
        v = (split s.req.inp).2.isSome
    | .crc8 => r = { s.resp with resCrc := crc8 s.cfg s.req.inp } ∧ v = false
    | .msgBuild dev pkt =>
      s.req.inp.length ≤ 251 ∧
        r = { s.resp with out := frameOf s.cfg (messageBuffer s.cfg dev pkt s.req.inp) } ∧ v = false
    | .msgParse => ∃ m, parse s.cfg s.req.inp = .ok m ∧
        r = { s.resp with resDev := m.dev, resPkt := m.pkt, out := m.payload } ∧ v = false
    | .fltEnc => r = { s.resp with out := serializeWords s.cfg.floatOrder s.req.inW } ∧ v = false
    | .fltDec => s.req.inp.length % 4 = 0 ∧
        r = { s.resp with outW := deserializeWords s.cfg.floatOrder s.req.inp } ∧ v = false
    | .streamFeed =>
      r = { s.resp with results := (split s.feedInput).1.map (entryOf s.cfg)
                        remOut := (split s.feedInput).2.getD s.resp.remOut } ∧
        v = (split s.feedInput).2.isSome := by
  cases i with
  | frameEnc | crc8 | fltEnc => cases h; exact ⟨rfl, rfl⟩
  | frameDec =>
    simp only [commandBody, frameDecBody] at h
    split at h <;> cases h
    exact ⟨_, by assumption, rfl, rfl⟩
  | frameSplit =>
    simp only [commandBody, frameSplitBody] at h
    split at h <;> rename_i heq <;> cases h <;> simp [heq]
  | msgBuild dev pkt =>
    simp only [commandBody, msgBuildBody] at h
    split_ifs at h with hl
    cases h
    simp only [Config.maxTotalLength, Config.trailerLen] at hl
    exact ⟨by omega, rfl, rfl⟩
  | msgParse =>
    simp only [commandBody, msgParseBody] at h
    split at h <;> cases h
    exact ⟨_, by assumption, rfl, rfl⟩
  | fltDec =>
    simp only [commandBody, fltDecBody] at h
    split_ifs at h with hl
    cases h
    exact ⟨by omega, rfl, rfl⟩
  | streamFeed =>
    simp only [commandBody, streamFeedBody] at h
    split at h <;> rename_i heq <;> cases h <;> simp [heq]

/-- R190's entry of a frame (R35, R202). -/
theorem entryOf_cases (c : Config) (f : Bytes) :
    (∃ m, parse c f = .ok m ∧ entryOf c f = { code := 0#4, dev := m.dev, pkt := m.pkt, payload := m.payload }) ∨
    ∃ e ∈ [Code.framingError, .tooShort, .lengthMismatch, .checksumMismatch], parse c f = .error e ∧
      entryOf c f = { code := e.num, dev := 0x00#8, pkt := 0x00#8, payload := [] } := by
  cases h : parse c f with
  | ok m => exact .inl ⟨m, rfl, by rw [entryOf, h]; rfl⟩
  | error e => exact .inr ⟨e, parse_error_ne_ok h, rfl, by rw [entryOf, h]⟩

end Sys2Proof.Machine
end

