-- ==== Sys2Proof/Laws/PerInstr.lean ====
section
/-! SUPPORT. What is said of every command as syntax, one lemma per constructor. -/

namespace Sys2Proof.Laws.LegalFields

/-- R75, R77: a command's fields make a legal command word, whose opcode field is the command's opcode. -/
def Statement (i : Instr) : Prop := (fieldsFor i).wellFormed = true ∧ (fieldsOf (encode i)).op = opcode i

theorem frameEnc : Statement .frameEnc := ⟨by decide, by simp [encode, fieldsFor]⟩
theorem frameDec : Statement .frameDec := ⟨by decide, by simp [encode, fieldsFor]⟩
theorem frameSplit : Statement .frameSplit := ⟨by decide, by simp [encode, fieldsFor]⟩
theorem crc8 : Statement .crc8 := ⟨by decide, by simp [encode, fieldsFor]⟩
theorem msgBuild (dev pkt : Byte) : Statement (.msgBuild dev pkt) :=
  ⟨by simp [fieldsFor, opcode, CmdFields.wellFormed, CmdFields.opAssigned, CmdFields.assignedOpcodes, CmdFields.rsvZero,
    CmdFields.operandsAllowed], by simp [encode, fieldsFor]⟩
theorem msgParse : Statement .msgParse := ⟨by decide, by simp [encode, fieldsFor]⟩
theorem fltEnc : Statement .fltEnc := ⟨by decide, by simp [encode, fieldsFor]⟩
theorem fltDec : Statement .fltDec := ⟨by decide, by simp [encode, fieldsFor]⟩
theorem streamFeed : Statement .streamFeed := ⟨by decide, by simp [encode, fieldsFor]⟩

end Sys2Proof.Laws.LegalFields
end

