-- ==== Sys2Proof/Tests/Slice0.lean ====
section
/-! SUPPORT. Tests whose expected results are the worked examples and vectors of spec/ (95_test_vectors.md unless a rule is
named), and for every obligation with hypotheses a witness that meets them. -/

set_option maxRecDepth 20000

namespace Sys2Proof.Tests

open Sys2Proof.Machine

/-- A reset codec with a bound MAX_IN and the host's IN. -/
def given (maxIn : Option Nat) (inp : Bytes) : State :=
  { State.reset with
    cfg := { Config.reference with maxIn := maxIn }
    req := { Requests.atReset with inp := inp } }

/-- A reset codec with the host's IN_W. -/
def givenWords (maxIn : Option Nat) (inW : List Word) : State := (given maxIn []).loadInW inW

/-- A reset codec with the host's REM_IN and IN. -/
def givenStream (maxIn : Option Nat) (remIn inp : Bytes) : State := (given maxIn inp).loadRemIn remIn

/-- A state whose host has these actions to do. -/
def State.doing (acts : List HostAction) (s : State) : State := { s with todo := acts }

/-- The outcome is a next state with this STATUS that satisfies `p`. -/
def ends (o : Host.Outcome State Fault Refusal) (status : Word) (p : State → Bool) : Bool :=
  match o with
  | .next t => t.status == status && p t
  | .fault _ => false
  | .refused _ => false

/-- A message entry. -/
def entry (code : BitVec 4) (dev pkt : Byte) (payload : Bytes) : ResultEntry :=
  { code := code, dev := dev, pkt := pkt, payload := payload }

/-- After FRAME.SPLIT of `41 00 42`, with a STREAM.FEED to come. -/
def afterSplit : State :=
  { given none [0x41#8, 0x00#8, 0x42#8] with
    status := 0x30#32
    resp := { Responses.cleared with frames := [[0x41#8]], remOut := [0x42#8] }
    todo := [.writeCmd 0x00000030#32] }

/-! ### WellFormed: an ill-formed term for each check -/

theorem test_wf_unassigned_opcode_refused :
    CmdFields.opAssigned { op := 0x04#8, dev := 0x00#8, pkt := 0x00#8, rsv := 0x00#8 } = false := by decide

theorem test_wf_reserved_field_refused :
    CmdFields.rsvZero { op := 0x01#8, dev := 0x00#8, pkt := 0x00#8, rsv := 0x01#8 } = false := by decide

theorem test_wf_stray_operand_refused :
    CmdFields.operandsAllowed { op := 0x12#8, dev := 0x01#8, pkt := 0x02#8, rsv := 0x00#8 } = false := by decide

theorem test_wf_whole_check_refuses_each :
    CmdFields.wellFormed { op := 0x00#8, dev := 0x00#8, pkt := 0x00#8, rsv := 0x00#8 } = false ∧
    CmdFields.wellFormed { op := 0x11#8, dev := 0x00#8, pkt := 0x00#8, rsv := 0xFF#8 } = false ∧
    CmdFields.wellFormed { op := 0x01#8, dev := 0x00#8, pkt := 0x01#8, rsv := 0x00#8 } = false ∧
    CmdFields.wellFormed { op := 0x11#8, dev := 0xFF#8, pkt := 0xFF#8, rsv := 0x00#8 } = true := by decide

/-- R10: each constraint on ESC and MASK refuses a choice, and the fixed values satisfy them all. -/
theorem test_config_constraints :
    ¬Config.Legal { Config.reference with esc := 0x00#8 } ∧ ¬Config.Legal { Config.reference with mask := 0x00#8 } ∧
    ¬Config.Legal { Config.reference with mask := 0x7D#8 } ∧ Config.Legal Config.reference := by decide

/-! ### Decoding: words written out from R70 and R75 as RSV, PKT, DEV and OP -/

theorem test_decode_frameEnc :
    decode (0b00000000#8 ++ 0b00000000#8 ++ 0b00000000#8 ++ 0b00000001#8) = .ok .frameEnc := by decide
theorem test_decode_frameDec :
    decode (0b00000000#8 ++ 0b00000000#8 ++ 0b00000000#8 ++ 0b00000010#8) = .ok .frameDec := by decide
theorem test_decode_frameSplit :
    decode (0b00000000#8 ++ 0b00000000#8 ++ 0b00000000#8 ++ 0b00000011#8) = .ok .frameSplit := by decide
theorem test_decode_crc8 :
    decode (0b00000000#8 ++ 0b00000000#8 ++ 0b00000000#8 ++ 0b00010000#8) = .ok .crc8 := by decide
theorem test_decode_msgBuild :
    decode (0b00000000#8 ++ 0b00000011#8 ++ 0b00001101#8 ++ 0b00010001#8) = .ok (.msgBuild 0x0D#8 0x03#8) := by decide
theorem test_decode_msgParse :
    decode (0b00000000#8 ++ 0b00000000#8 ++ 0b00000000#8 ++ 0b00010010#8) = .ok .msgParse := by decide
theorem test_decode_fltEnc :
    decode (0b00000000#8 ++ 0b00000000#8 ++ 0b00000000#8 ++ 0b00100000#8) = .ok .fltEnc := by decide
theorem test_decode_fltDec :
    decode (0b00000000#8 ++ 0b00000000#8 ++ 0b00000000#8 ++ 0b00100001#8) = .ok .fltDec := by decide
theorem test_decode_streamFeed :
    decode (0b00000000#8 ++ 0b00000000#8 ++ 0b00000000#8 ++ 0b00110000#8) = .ok .streamFeed := by decide

/-- 95_test_vectors.md 2.6: the illegal words, each refused by name. -/
theorem test_decode_illegal :
    decode 0x01000001#32 = .error .reservedFieldNotZero ∧ decode 0xFF000011#32 = .error .reservedFieldNotZero ∧
    decode 0x00000101#32 = .error .operandFieldNotZero ∧ decode 0x00020112#32 = .error .operandFieldNotZero ∧
    decode 0x00000000#32 = .error .unassignedOpcode ∧ decode 0x00000004#32 = .error .unassignedOpcode ∧
    decode 0x00000031#32 = .error .unassignedOpcode ∧ decode 0x00000100#32 = .error .unassignedOpcode := by decide

theorem test_decodeTableWord :
    decodeTableWord 32 0x00FFFF11 = some (.msgBuild 0xFF#8 0xFF#8) ∧ decodeTableWord 32 0x30 = some .streamFeed ∧
    decodeTableWord 32 0x01000001 = none ∧ decodeTableWord 40 0x100000001 = none := by decide

/-- P1 and P3 of 95_test_vectors.md: the words of `MSG.BUILD dev=0x01, pkt=0x02` and of `MSG.BUILD dev=0x0D, pkt=0x03`. -/
theorem test_encode_msgBuild :
    encode (.msgBuild 0x01#8 0x02#8) = 0x00020111#32 ∧ encode (.msgBuild 0x0D#8 0x03#8) = 0x00030D11#32 := by decide

theorem test_withFetchWord_runs_the_word :
    step (State.reset.withFetchWord 32 0x00FFFF11) =
      exec (.msgBuild 0xFF#8 0xFF#8) { State.reset with req := { Requests.atReset with cmd := 0x00FFFF11#32 } } := rfl

/-! ### One step of each command -/

/-- T2.3a. -/
theorem test_frameEnc :
    ends (exec .frameEnc (given none [0x01#8, 0x00#8, 0x7D#8, 0x02#8])) 0x20#32
      (·.resp.out == [0x01#8, 0x7D#8, 0x20#8, 0x7D#8, 0x5D#8, 0x02#8, 0x00#8]) = true := by decide
/-- T2.3a: 0x7E is ordinary here. -/
theorem test_frameEnc_literal :
    ends (exec .frameEnc (given none [0x7E#8])) 0x20#32 (·.resp.out == [0x7E#8, 0x00#8]) = true := by decide
/-- T2.3b. -/
theorem test_frameDec :
    ends (exec .frameDec (given none [0x7D#8, 0x5D#8, 0x7D#8, 0x20#8])) 0x20#32
      (·.resp.out == [0x7D#8, 0x00#8]) = true := by decide
/-- T2.3b: the trailing delimiter is stripped, leaving the escape last. -/
theorem test_frameDec_truncated_escape :
    ends (exec .frameDec (given none [0x7D#8, 0x00#8])) 0x21#32 (·.resp.out == []) = true := by decide
/-- T2.3c. -/
theorem test_frameSplit :
    ends (exec .frameSplit (given none [0x41#8, 0x42#8, 0x00#8, 0x00#8, 0x43#8])) 0x30#32
      (fun t => t.resp.frames == [[0x41#8, 0x42#8], []] && t.resp.remOut == [0x43#8]) = true := by decide
/-- T2.3c: a delimiter last leaves no remainder. -/
theorem test_frameSplit_no_remainder :
    ends (exec .frameSplit (given none [0x41#8, 0x00#8])) 0x20#32
      (fun t => t.resp.frames == [[0x41#8]] && t.resp.remOut == []) = true := by decide
/-- R134: the checksum of "123456789". -/
theorem test_crc8 :
    ends (exec .crc8 (given none [0x31#8, 0x32#8, 0x33#8, 0x34#8, 0x35#8, 0x36#8, 0x37#8, 0x38#8, 0x39#8])) 0x20#32
      (·.resp.resCrc == 0xD8#8) = true := by decide
/-- R134. -/
theorem test_crc8_zero : ends (exec .crc8 (given none [0x00#8])) 0x20#32 (·.resp.resCrc == 0xEA#8) = true := by decide
/-- T2.1a: the checksum of "123456789" with each alternative choice of the CRC's parameters. -/
theorem test_crc8_parameters :
    let s := [0x31#8, 0x32#8, 0x33#8, 0x34#8, 0x35#8, 0x36#8, 0x37#8, 0x38#8, 0x39#8]
    Sys2Proof.Machine.crc8 { Config.reference with crcReflect := false } s = 0xF9#8 ∧
    Sys2Proof.Machine.crc8 { Config.reference with crcInit := 0x00#8 } s = 0x7B#8 ∧
    Sys2Proof.Machine.crc8 { Config.reference with crcReflect := false, crcInit := 0x00#8 } s = 0x3C#8 := by decide
/-- T2.2c: the message `00 00 A0 41` of device 0D, packet 03. -/
theorem test_msgBuild :
    ends (exec (.msgBuild 0x0D#8 0x03#8) (given none [0x00#8, 0x00#8, 0xA0#8, 0x41#8])) 0x20#32
      (·.resp.out == [0x7D#8, 0x20#8, 0x7D#8, 0x20#8, 0xA0#8, 0x41#8, 0x03#8, 0x0D#8, 0x08#8, 0x42#8, 0x00#8]) =
      true := by decide
/-- P4: 252 bytes of 0x41. -/
theorem test_msgBuild_too_large :
    ends (exec (.msgBuild 0x01#8 0x02#8) (given none (List.replicate 252 0x41#8))) 0x25#32 (·.resp.out == []) = true := by
  decide
/-- T2.2b: the stuffed payload `00 7D`. -/
theorem test_msgParse :
    ends (exec .msgParse (given none [0x7D#8, 0x20#8, 0x7D#8, 0x5D#8, 0x7D#8, 0x20#8, 0x7D#8, 0x5D#8, 0x06#8, 0x87#8,
      0x00#8])) 0x20#32
      (fun t => t.resp.resDev == 0x7D#8 && t.resp.resPkt == 0x00#8 && t.resp.out == [0x00#8, 0x7D#8]) = true := by decide
/-- T2.2b: the length check comes before the checksum. -/
theorem test_msgParse_length :
    ends (exec .msgParse (given none [0x02#8, 0x01#8, 0x05#8, 0x6D#8])) 0x23#32 (·.resp.out == []) = true := by decide
/-- T2.4a: a NaN's payload is kept. -/
theorem test_fltEnc :
    ends (exec .fltEnc (givenWords none [0x7FC00001#32, 0x00000001#32, 0x7F7FFFFF#32])) 0x20#32
      (·.resp.out ==
        [0x01#8, 0x00#8, 0xC0#8, 0x7F#8, 0x01#8, 0x00#8, 0x00#8, 0x00#8, 0xFF#8, 0xFF#8, 0x7F#8, 0x7F#8]) = true := by
  decide
/-- T2.4b. -/
theorem test_fltDec :
    ends (exec .fltDec (given none [0x00#8, 0x00#8, 0xA0#8, 0x41#8, 0x00#8, 0x00#8, 0xA0#8, 0xC1#8])) 0x20#32
      (·.resp.outW == [0x41A00000#32, 0xC1A00000#32]) = true := by decide
/-- T2.4b: no partial result. -/
theorem test_fltDec_invalid_length :
    ends (exec .fltDec (given none [0x00#8, 0x00#8, 0xA0#8, 0x41#8, 0x00#8])) 0x26#32 (·.resp.outW == []) = true := by
  decide
/-- T2.5a, step 2. -/
theorem test_streamFeed :
    ends (exec .streamFeed (givenStream none [0x7D#8, 0x20#8, 0x7D#8, 0x20#8, 0xA0#8]
      [0x41#8, 0x03#8, 0x0D#8, 0x08#8, 0x42#8, 0x00#8, 0x41#8, 0x42#8, 0x00#8, 0x7D#8])) 0x30#32
      (fun t =>
        t.resp.results == [entry 0#4 0x0D#8 0x03#8 [0x00#8, 0x00#8, 0xA0#8, 0x41#8], entry 2#4 0x00#8 0x00#8 []] &&
          t.resp.remOut == [0x7D#8]) = true := by decide
/-- T2.5b: noise is discarded and the next frame is still decoded. -/
theorem test_streamFeed_noise :
    ends (exec .streamFeed (givenStream none []
      [0x7D#8, 0x41#8, 0x00#8, 0x02#8, 0x01#8, 0x04#8, 0x6D#8, 0x00#8])) 0x20#32
      (fun t => t.resp.results == [entry 1#4 0x00#8 0x00#8 [], entry 0#4 0x01#8 0x02#8 []]) = true := by decide

/-- 95_test_vectors.md 2.6: capacity, of each input size. -/
theorem test_capacity :
    ends (exec .frameSplit (given (some 2) [0x41#8, 0x42#8, 0x43#8])) 0x28#32 (·.resp.frames == []) = true ∧
    ends (exec .fltEnc (givenWords (some 3) [0x41A00000#32])) 0x28#32 (·.resp.out == []) = true ∧
    ends (exec .streamFeed (givenStream (some 1) [0x41#8] [0x00#8])) 0x28#32 (·.resp.results == []) = true ∧
    ends (exec .frameEnc (given (some 3) [0x41#8, 0x42#8, 0x43#8])) 0x20#32
      (·.resp.out == [0x41#8, 0x42#8, 0x43#8, 0x00#8]) = true := by decide

/-- R36: an illegal word is stored in CMD and clears what a command left. -/
theorem test_illegal_word :
    ends (step ((State.doing [.writeCmd 0x00000004#32]) afterSplit)) 0x27#32
      (fun t => t.req.cmd == 0x00000004#32 && t.resp == Responses.cleared && t.req.inp == afterSplit.req.inp) = true := by
  decide

/-- R80: the copy of a remainder, and of none. -/
theorem test_copyRem :
    ends (step (State.doing [.copyRem] afterSplit)) 0x30#32 (·.req.remIn == [0x42#8]) = true ∧
    ends (step (State.doing [.copyRem] (givenStream none [0x99#8] []))) 0x00#32 (·.req.remIn == []) = true := by decide

/-! ### Witnesses of the obligations' hypotheses -/

theorem fits_of {c : Config} {n : Nat} (h : exceedsCapacity c n = false) : Fits c n := (not_exceedsCapacity_iff _ _).1 h

theorem exceeds_of {c : Config} {n : Nat} (h : exceedsCapacity c n = true) : Exceeds c n := (exceedsCapacity_iff _ _).1 h

/-- A state that no reset left: it meets the invariant, holds a remainder and has a command to run. -/
theorem afterSplit_inv : afterSplit.Inv :=
  ⟨by decide, by decide, by decide, by decide, by decide, by decide, by decide, by decide, by decide, by decide, by decide⟩

theorem witness_ResetSetsEveryRegister :
    (State.doing [.reset, .copyRem] afterSplit).todo = .reset :: [.copyRem] := rfl

theorem witness_StepKeepsTheInvariant : afterSplit.Inv ∧ ∃ t, step afterSplit = .next t := ⟨afterSplit_inv, _, rfl⟩

theorem witness_EveryRunIsSafe : afterSplit.Inv := afterSplit_inv

theorem witness_StepRunsTheDecodedCommand :
    (State.doing [.writeCmd 0x00030D11#32] afterSplit).todo = .writeCmd 0x00030D11#32 :: [] ∧
    decode 0x00030D11#32 = .ok (.msgBuild 0x0D#8 0x03#8) := by decide

theorem witness_IdleStepChangesNothing : (State.doing [] afterSplit).todo = [] := rfl

/-- A row and a word of it, and a word of no row: one bit of RSV above a legal word. -/
theorem witness_WordsDecodeByMatchAndMask :
    (0x00000011#32, 0xFF0000FF#32, "MSG.BUILD") ∈ opcodeRows ∧ 0x00FFFF11#32 &&& 0xFF0000FF#32 = 0x00000011#32 ∧
    (State.doing [.writeCmd 0x01000001#32] afterSplit).todo = .writeCmd 0x01000001#32 :: [] ∧
    ∀ row ∈ opcodeRows, 0x01000001#32 &&& row.2.1 ≠ row.1 := by decide

theorem witness_OperandsAreTheWordsFields : decode 0x00FF0011#32 = .ok (.msgBuild 0x00#8 0xFF#8) := by decide

theorem witness_EncodeAndDecodeAreInverse : decode 0x0000FF11#32 = .ok (.msgBuild 0xFF#8 0x00#8) := by decide

theorem witness_CommandsNeverWriteRequests : ∃ t, exec .streamFeed afterSplit = .next t := ⟨_, rfl⟩

theorem witness_RequestsChangeOnlyByTheHost : ∃ t, step (State.doing [.loadInW [0x00000001#32]] afterSplit) = .next t :=
  ⟨_, rfl⟩

theorem witness_ResponsesChangeOnlyByCommands : ∃ t, step (State.doing [.copyRem] afterSplit) = .next t := ⟨_, rfl⟩

/-- One command for each clause: FRAME.SPLIT writes FRAMES and REM_OUT alone, FLT.DEC OUT_W alone. -/
theorem witness_CommandsStartFromClearedResponses :
    (∃ t, exec .frameSplit afterSplit = .next t) ∧ (∃ t, exec .fltDec afterSplit = .next t) ∧
    Instr.frameSplit ∉ [Instr.frameEnc, .frameDec, .msgParse, .fltEnc] ∧
    (∀ dev pkt, Instr.frameSplit ≠ .msgBuild dev pkt) ∧ Instr.frameSplit ≠ .fltDec ∧ Instr.fltDec ≠ .frameSplit ∧
    Instr.fltDec ≠ .streamFeed ∧ Instr.fltDec ≠ .msgParse ∧ Instr.fltDec ≠ .crc8 :=
  ⟨⟨_, rfl⟩, ⟨_, rfl⟩, by decide, fun _ _ => Instr.noConfusion, by decide, by decide, by decide, by decide, by decide⟩

/-- Two states that differ in CMD, STATUS and every response register; for FLT.ENC, in IN and REM_IN too. -/
theorem witness_ResponsesDependOnlyOnRequests :
    (afterSplit.cfg = (given none [0x41#8, 0x00#8, 0x42#8]).cfg ∧
      afterSplit.req.inp = (given none [0x41#8, 0x00#8, 0x42#8]).req.inp ∧
      afterSplit.req.remIn = (given none [0x41#8, 0x00#8, 0x42#8]).req.remIn ∧
      (∃ t, exec .streamFeed afterSplit = .next t) ∧
      ∃ t, exec .streamFeed (given none [0x41#8, 0x00#8, 0x42#8]) = .next t) ∧
    afterSplit.cfg = (givenStream none [0x07#8] []).cfg ∧ afterSplit.req.inW = (givenStream none [0x07#8] []).req.inW ∧
    (∃ t, exec .fltEnc afterSplit = .next t) ∧ ∃ t, exec .fltEnc (givenStream none [0x07#8] []) = .next t :=
  ⟨⟨rfl, rfl, rfl, ⟨_, rfl⟩, _, rfl⟩, rfl, rfl, ⟨_, rfl⟩, _, rfl⟩

/-- An illegal word, and then a command. -/
theorem witness_EarlierCommandsNeverMatter :
    ∃ t, step (State.doing [.writeCmd 0x00000000#32] afterSplit) = .next t ∧
      (∃ u, exec .frameSplit (State.doing [.writeCmd 0x00000000#32] afterSplit) = .next u) ∧
      ∃ v, exec .frameSplit t = .next v :=
  ⟨_, rfl, ⟨_, rfl⟩, _, rfl⟩

/-- A command that leaves a remainder, and one that leaves none. -/
theorem witness_StatusFieldsAfterACommand :
    (∃ t, exec .frameSplit afterSplit = .next t ∧ remValidOf t.status = true) ∧
    ∃ t, exec .frameEnc afterSplit = .next t ∧ remValidOf t.status = false :=
  ⟨⟨_, rfl, by decide⟩, _, rfl, by decide⟩

/-- An illegal word, and a legal one that fails: MSG.PARSE of `41 00 42`. -/
theorem witness_FailedCommandsLeaveNothing :
    (∃ t, step (State.doing [.writeCmd 0x00000031#32] afterSplit) = .next t ∧ codeOf t.status ≠ 0#4) ∧
    ∃ t, step (State.doing [.writeCmd 0x00000012#32] afterSplit) = .next t ∧ codeOf t.status ≠ 0#4 :=
  ⟨⟨_, rfl, by decide⟩, _, rfl, by decide⟩

/-- A command of each clause. -/
theorem witness_CodesEachCommandRaises :
    (∃ t, exec .crc8 afterSplit = .next t) ∧ (∃ t, exec .frameDec afterSplit = .next t) ∧
    (∃ t, exec (.msgBuild 0x01#8 0x02#8) afterSplit = .next t) ∧ (∃ t, exec .msgParse afterSplit = .next t) ∧
    (∃ t, exec .fltDec afterSplit = .next t) ∧ Instr.crc8 ∈ [Instr.frameEnc, .frameSplit, .crc8, .fltEnc, .streamFeed] ∧
    8#4 ∉ [0#4, 1#4, 2#4, 3#4, 4#4] ∧ 4#4 ∈ [0#4, 1#4, 2#4, 3#4, 4#4] :=
  ⟨⟨_, rfl⟩, ⟨_, rfl⟩, ⟨_, rfl⟩, ⟨_, rfl⟩, ⟨_, rfl⟩, by decide, by decide, by decide⟩

/-- Each input size one above MAX_IN. -/
theorem witness_CapacityLimitsTheInput_exceeds :
    Exceeds (given (some 2) [0x41#8, 0x42#8, 0x43#8]).cfg (given (some 2) [0x41#8, 0x42#8, 0x43#8]).req.inp.length ∧
    Exceeds (givenWords (some 3) [0x41A00000#32]).cfg (4 * (givenWords (some 3) [0x41A00000#32]).req.inW.length) ∧
    Exceeds (givenStream (some 1) [0x41#8] [0x00#8]).cfg
      ((givenStream (some 1) [0x41#8] [0x00#8]).req.remIn.length +
        (givenStream (some 1) [0x41#8] [0x00#8]).req.inp.length) :=
  ⟨exceeds_of rfl, exceeds_of rfl, exceeds_of rfl⟩

/-- Each input size at MAX_IN. -/
theorem witness_CapacityLimitsTheInput_fits :
    (Fits (given (some 3) [0x41#8, 0x42#8, 0x43#8]).cfg (given (some 3) [0x41#8, 0x42#8, 0x43#8]).req.inp.length ∧
      ∃ t, exec .frameEnc (given (some 3) [0x41#8, 0x42#8, 0x43#8]) = .next t) ∧
    (Fits (givenWords (some 4) [0x41A00000#32]).cfg (4 * (givenWords (some 4) [0x41A00000#32]).req.inW.length) ∧
      ∃ t, exec .fltEnc (givenWords (some 4) [0x41A00000#32]) = .next t) ∧
    (Fits (givenStream (some 2) [0x41#8] [0x00#8]).cfg
      ((givenStream (some 2) [0x41#8] [0x00#8]).req.remIn.length +
        (givenStream (some 2) [0x41#8] [0x00#8]).req.inp.length) ∧
      ∃ t, exec .streamFeed (givenStream (some 2) [0x41#8] [0x00#8]) = .next t) :=
  ⟨⟨fits_of rfl, _, rfl⟩, ⟨fits_of rfl, _, rfl⟩, fits_of rfl, _, rfl⟩

theorem witness_CapacityLimitsTheInput_unbounded :
    (given none [0x41#8]).cfg.maxIn = none ∧ ∃ t, exec .crc8 (given none [0x41#8]) = .next t := ⟨rfl, _, rfl⟩

theorem witness_HostWritesAreWholeRegister :
    (State.doing [.loadIn [0x01#8]] afterSplit).todo = .loadIn [0x01#8] :: [] ∧
    (State.doing [.loadInW []] afterSplit).todo = .loadInW [] :: [] ∧
    (State.doing [.loadRemIn [0x02#8]] afterSplit).todo = .loadRemIn [0x02#8] :: [] ∧
    (State.doing [.writeReadOnly .remOut (.bytes [])] afterSplit).todo = .writeReadOnly .remOut (.bytes []) :: [] :=
  ⟨rfl, rfl, rfl, rfl⟩

theorem witness_HostReadsDeliverTheRegister :
    (Reg.seq .frames, RegValue.frames [[0x41#8]]) ∈ registerContents (State.doing [.read (.seq .frames)] afterSplit) ∧
    (Reg.len .results, RegValue.count 0) ∈ registerContents afterSplit ∧
    (State.doing [.read (.seq .frames)] afterSplit).todo = .read (.seq .frames) :: [] := by decide

/-- The middle byte of IN, the last word of IN_W, the only frame, and no entry of RESULTS. -/
theorem witness_ElementReadsAgreeWithWholeReads :
    (afterSplit.req.inp = [0x41#8] ++ [0x00#8] ++ [0x42#8] ∧
      (State.doing [.readElems .inp 1 1] afterSplit).todo = .readElems .inp [0x41#8].length [0x00#8].length :: []) ∧
    ((givenWords none [0x00000001#32, 0x00000002#32]).req.inW = [0x00000001#32] ++ [0x00000002#32] ++ [] ∧
      (State.doing [.readElems .inW 1 1] (givenWords none [0x00000001#32, 0x00000002#32])).todo =
        .readElems .inW [0x00000001#32].length [0x00000002#32].length :: []) ∧
    (afterSplit.resp.frames = [] ++ [[0x41#8]] ++ [] ∧
      (State.doing [.readElems .frames 0 1] afterSplit).todo =
        .readElems .frames ([] : List Bytes).length [[0x41#8]].length :: []) ∧
    afterSplit.resp.results = [] ++ [] ++ [] ∧
    (State.doing [.readElems .results 0 0] afterSplit).todo =
      .readElems .results ([] : List ResultEntry).length ([] : List ResultEntry).length :: [] := by decide

theorem witness_CopyCarriesTheRemainder :
    ((State.doing [.copyRem] afterSplit).todo = .copyRem :: [] ∧
      remValidOf (State.doing [.copyRem] afterSplit).status = true) ∧
    (State.doing [.copyRem] (given none [])).todo = .copyRem :: [] ∧
    remValidOf (State.doing [.copyRem] (given none [])).status = false := by decide

/-- R9's parameters with a bound, and the three kinds of byte. -/
theorem witness_StuffingEscapesExactlyTwoBytes :
    (given (some 3) []).cfg.IsHardware ∧ 0x7E#8 ≠ 0x00#8 ∧ 0x7E#8 ≠ 0x7D#8 := by decide

theorem witness_FrameEncFramesTheInput :
    Fits (given (some 2) [0x00#8, 0x7D#8]).cfg (given (some 2) [0x00#8, 0x7D#8]).req.inp.length ∧
    Exceeds (given (some 1) [0x00#8, 0x7D#8]).cfg (given (some 1) [0x00#8, 0x7D#8]).req.inp.length ∧
    (∀ b ∈ [0x00#8, 0x7D#8], b = 0x00#8 ∨ b = 0x7D#8) ∧ (∀ b ∈ [0x7E#8, 0x20#8], b ≠ 0x00#8 ∧ b ≠ 0x7D#8) ∧
    (given (some 2) []).cfg.IsHardware :=
  ⟨fits_of rfl, exceeds_of rfl, by decide, by decide, by decide⟩

theorem witness_FramesHoldOneDelimiterAtTheEnd :
    Config.reference.Legal ∧ (stuff Config.reference [0x01#8, 0x7D#8])[1]? = some Config.reference.esc := by decide

/-- A frame with its delimiter, and one without: a delimiter inside, an escape byte last, an invalid code. -/
theorem witness_DestuffFailsInThreeCases :
    Config.reference.Legal ∧ [0x41#8, 0x00#8, 0x42#8, 0x00#8] = [0x41#8, 0x00#8, 0x42#8] ++ [0x00#8] ∧
    (∀ g, [0x41#8, 0x7D#8] ≠ g ++ [0x00#8]) ∧
    destuff Config.reference [0x41#8, 0x00#8, 0x42#8, 0x00#8] = .error .framingError ∧
    destuff Config.reference [0x41#8, 0x7D#8] = .error .framingError ∧
    destuff Config.reference [0x7D#8, 0x41#8] = .error .framingError := by
  refine ⟨by decide, rfl, fun g h => ?_, by decide, by decide, by decide⟩
  have h' := congrArg List.getLast? h
  simp at h'

theorem witness_FrameDecRecoversTheBuffer :
    (Fits (given (some 4) [0x7D#8, 0x5D#8, 0x7D#8, 0x20#8]).cfg
        (given (some 4) [0x7D#8, 0x5D#8, 0x7D#8, 0x20#8]).req.inp.length ∧
      destuff (given (some 4) []).cfg [0x7D#8, 0x5D#8, 0x7D#8, 0x20#8] = .ok [0x7D#8, 0x00#8]) ∧
    (Fits (given (some 1) [0x7D#8]).cfg (given (some 1) [0x7D#8]).req.inp.length ∧
      destuff (given (some 1) []).cfg [0x7D#8] = .error .framingError) ∧
    Exceeds (given (some 0) [0x7D#8]).cfg (given (some 0) [0x7D#8]).req.inp.length ∧ (given none []).cfg.IsHardware :=
  ⟨⟨fits_of rfl, by decide⟩, ⟨fits_of rfl, by decide⟩, exceeds_of rfl, by decide⟩

theorem witness_StuffingIsABijection :
    Config.reference.Legal ∧ 0x00#8 ∉ [0x7D#8, 0x20#8, 0x41#8] ∧
    destuff Config.reference [0x7D#8, 0x20#8, 0x41#8] = .ok [0x00#8, 0x41#8] := by decide

/-- One split with a remainder, and one without. -/
theorem witness_SplitCutsAtEveryDelimiter :
    split [0x41#8, 0x00#8, 0x42#8] = ([[0x41#8]], some [0x42#8]) ∧ split [0x00#8, 0x00#8] = ([[], []], none) := by decide

theorem witness_FrameSplitSplitsTheInput :
    (Fits (given (some 2) [0x00#8, 0x00#8]).cfg (given (some 2) [0x00#8, 0x00#8]).req.inp.length ∧
      split [0x00#8, 0x00#8] = ([[], []], none)) ∧
    (Fits (given (some 1) [0x41#8]).cfg (given (some 1) [0x41#8]).req.inp.length ∧
      split [0x41#8] = ([], some [0x41#8])) ∧
    Exceeds (given (some 0) [0x41#8]).cfg (given (some 0) [0x41#8]).req.inp.length :=
  ⟨⟨fits_of rfl, by decide⟩, ⟨fits_of rfl, by decide⟩, exceeds_of rfl⟩

theorem witness_SplitOfFramesAndChunks : Config.reference.Legal ∧ [0x7D#8] ≠ [] ∧ 0x00#8 ∉ [0x7D#8] := by decide

theorem witness_CrcIsBitSerial :
    Config.reference.crcReflect = true ∧ Config.reference.crcInit = 0xFF#8 ∧
    ({ Config.reference with crcReflect := false } : Config).crcReflect = false ∧
    ({ Config.reference with crcReflect := false } : Config).crcInit = 0xFF#8 := by decide

/-- Two pairs with one XOR; bit 7 changed in a byte before the checksum, and in the checksum. -/
theorem witness_CrcMissesNoSingleBitError :
    Config.reference.crcInit = 0xFF#8 ∧
    List.zipWith (· ^^^ ·) [0x01#8] [0x03#8] = List.zipWith (· ^^^ ·) [0x00#8] [0x02#8] ∧
    (([0x01#8] ++ [Sys2Proof.Machine.crc8 Config.reference [0x01#8]])[0]? = some 0x01#8 ∧
      [0x81#8] ++ [0xD4#8] =
        ([0x01#8] ++ [Sys2Proof.Machine.crc8 Config.reference [0x01#8]]).set 0 (0x01#8 ^^^ (1#8 <<< 7))) ∧
    ([0x01#8] ++ [Sys2Proof.Machine.crc8 Config.reference [0x01#8]])[1]? = some 0xD4#8 ∧
    [0x01#8] ++ [0x54#8] =
      ([0x01#8] ++ [Sys2Proof.Machine.crc8 Config.reference [0x01#8]]).set 1 (0xD4#8 ^^^ (1#8 <<< 7)) := by decide

theorem witness_Crc8ChecksumsTheInput :
    Fits (given (some 1) [0xFF#8]).cfg (given (some 1) [0xFF#8]).req.inp.length ∧
    Exceeds (given (some 0) [0xFF#8]).cfg (given (some 0) [0xFF#8]).req.inp.length ∧ (given (some 0) []).cfg.IsHardware :=
  ⟨fits_of rfl, exceeds_of rfl, by decide⟩

/-- 251 bytes, 252 bytes, one more than MAX_IN, and none. -/
theorem witness_MsgBuildFramesTheMessage :
    (Fits (given none (List.replicate 251 0x00#8)).cfg (given none (List.replicate 251 0x00#8)).req.inp.length ∧
      (given none (List.replicate 251 0x00#8)).req.inp.length ≤ 251) ∧
    (Fits (given none (List.replicate 252 0x00#8)).cfg (given none (List.replicate 252 0x00#8)).req.inp.length ∧
      251 < (given none (List.replicate 252 0x00#8)).req.inp.length) ∧
    Exceeds (given (some 0) [0x41#8]).cfg (given (some 0) [0x41#8]).req.inp.length ∧
    (given (some 0) []).cfg.IsHardware ∧ Fits (given (some 0) []).cfg 0 ∧ (given (some 0) []).req.inp = [] :=
  ⟨⟨fits_of rfl, by decide⟩, ⟨fits_of rfl, by decide⟩, exceeds_of rfl, by decide, fits_of rfl, rfl⟩

theorem witness_BuiltFramesAreBounded :
    (∃ t, exec (.msgBuild 0x01#8 0x02#8) (given none (List.replicate 252 0x41#8)) = .next t) ∧
    251 < (given none (List.replicate 252 0x41#8)).req.inp.length := ⟨⟨_, rfl⟩, by decide⟩

theorem witness_MsgParseChecksInOrder_capacity :
    Exceeds (given (some 3) [0x02#8, 0x01#8, 0x04#8, 0x6D#8]).cfg
      (given (some 3) [0x02#8, 0x01#8, 0x04#8, 0x6D#8]).req.inp.length := exceeds_of rfl

/-- T2.2b: FramingError, three bytes and 300 bytes. -/
theorem witness_MsgParseChecksInOrder_shape :
    (Fits (given none [0x7D#8, 0x41#8]).cfg (given none [0x7D#8, 0x41#8]).req.inp.length ∧
      destuff Config.reference [0x7D#8, 0x41#8] = .error .framingError) ∧
    (destuff Config.reference [0x41#8, 0x42#8, 0x43#8] = .ok [0x41#8, 0x42#8, 0x43#8] ∧
      [0x41#8, 0x42#8, 0x43#8].length ≤ 3) ∧
    destuff Config.reference (List.replicate 256 0x41#8) = .ok (List.replicate 256 0x41#8) ∧
    255 < (List.replicate 256 0x41#8).length :=
  ⟨⟨fits_of rfl, by decide⟩, ⟨by decide, by decide⟩, by decide, by decide⟩

/-- T2.2b: a wrong length, a wrong checksum, and neither. -/
theorem witness_MsgParseChecksInOrder_trailer :
    (destuff Config.reference [0x02#8, 0x01#8, 0x05#8, 0x6D#8] = .ok ([] ++ [0x02#8, 0x01#8, 0x05#8, 0x6D#8]) ∧
      (0x05#8).toNat ≠ ([] : Bytes).length + 4) ∧
    (destuff Config.reference [0x02#8, 0x01#8, 0x04#8, 0x6C#8] = .ok ([] ++ [0x02#8, 0x01#8, 0x04#8, 0x6C#8]) ∧
      (0x04#8).toNat = ([] : Bytes).length + 4 ∧
      Sys2Proof.Machine.crc8 Config.reference ([] ++ [0x02#8, 0x01#8, 0x04#8]) ≠ 0x6C#8) ∧
    destuff Config.reference [0x02#8, 0x01#8, 0x04#8, 0x6D#8] = .ok ([] ++ [0x02#8, 0x01#8, 0x04#8, 0x6D#8]) ∧
    Sys2Proof.Machine.crc8 Config.reference ([] ++ [0x02#8, 0x01#8, 0x04#8]) = 0x6D#8 ∧
    Fits (given (some 4) [0x02#8, 0x01#8, 0x04#8, 0x6D#8]).cfg 4 ∧
    (given (some 4) [0x02#8, 0x01#8, 0x04#8, 0x6D#8]).cfg.IsHardware :=
  ⟨by decide, by decide, by decide, by decide, fits_of rfl, by decide⟩

/-- The longest payload; and a MAX_IN that admits both the payload and its frame. -/
theorem witness_ParseInvertsBuild :
    (given none (List.replicate 251 0x41#8)).cfg.Legal ∧
    Fits (given none (List.replicate 251 0x41#8)).cfg (given none (List.replicate 251 0x41#8)).req.inp.length ∧
    (given none (List.replicate 251 0x41#8)).req.inp.length ≤ 251 ∧
    ends (exec (.msgBuild 0x01#8 0x02#8) (given (some 5) [])) 0x20#32
      (fun t => t.resp.out == [0x02#8, 0x01#8, 0x04#8, 0x6D#8] ++ [0x00#8]) = true ∧
    Fits (given (some 5) []).cfg [0x02#8, 0x01#8, 0x04#8, 0x6D#8, 0x00#8].length :=
  ⟨by decide, fits_of rfl, by decide, by decide, fits_of rfl⟩

theorem witness_SingleBitErrorsAreCaught_in_the_frame :
    (given (some 10) []).cfg.IsHardware ∧ Fits (given (some 10) []).cfg 10 := ⟨by decide, fits_of rfl⟩

/-- T2.2c: bit 3 of the length byte, and bit 7 of the checksum. -/
theorem witness_SingleBitErrorsAreCaught :
    ((messageBuffer Config.reference 0x01#8 0x02#8 [])[2]? = some 0x04#8 ∧
      [0x02#8, 0x01#8, 0x0C#8, 0x6D#8, 0x00#8] =
        stuff Config.reference ((messageBuffer Config.reference 0x01#8 0x02#8 []).set 2 (0x04#8 ^^^ (1#8 <<< 3))) ++
          [0x00#8]) ∧
    ((messageBuffer Config.reference 0x01#8 0x02#8 [])[3]? = some 0x6D#8 ∧
      [0x02#8, 0x01#8, 0x04#8, 0xED#8, 0x00#8] =
        stuff Config.reference ((messageBuffer Config.reference 0x01#8 0x02#8 []).set 3 (0x6D#8 ^^^ (1#8 <<< 7))) ++
          [0x00#8]) ∧
    Fits (given none [0x02#8, 0x01#8, 0x04#8, 0xED#8, 0x00#8]).cfg
      (given none [0x02#8, 0x01#8, 0x04#8, 0xED#8, 0x00#8]).req.inp.length ∧
    (given none []).cfg.Legal :=
  ⟨by decide, by decide, fits_of rfl, by decide⟩

theorem witness_LengthTamperIsCaught :
    0x05#8 ≠ BitVec.ofNat 8 (([] : Bytes).length + 4) ∧
    [0x02#8, 0x01#8, 0x05#8, 0x6D#8, 0x00#8] =
      stuff Config.reference ((messageBuffer Config.reference 0x01#8 0x02#8 []).set 2 0x05#8) ++ [0x00#8] ∧
    Fits (given none [0x02#8, 0x01#8, 0x05#8, 0x6D#8, 0x00#8]).cfg
      (given none [0x02#8, 0x01#8, 0x05#8, 0x6D#8, 0x00#8]).req.inp.length ∧ (given none []).cfg.Legal :=
  ⟨by decide, by decide, fits_of rfl, by decide⟩

theorem witness_SuccessIsToldByTheCodeAlone :
    (given (some 6) [0x7D#8, 0x20#8, 0x7D#8, 0x20#8, 0x04#8, 0x1E#8]).cfg.IsHardware ∧
    Fits (given (some 6) [0x7D#8, 0x20#8, 0x7D#8, 0x20#8, 0x04#8, 0x1E#8]).cfg 6 ∧
    ∃ t, exec .msgParse (given (some 6) [0x7D#8, 0x20#8, 0x7D#8, 0x20#8, 0x04#8, 0x1E#8]) = .next t :=
  ⟨by decide, fits_of rfl, _, rfl⟩

theorem witness_FltEncSerializesTheWords :
    (givenWords (some 4) [0x41A00000#32]).cfg.floatOrder = .littleEndian ∧
    Fits (givenWords (some 4) [0x41A00000#32]).cfg (4 * (givenWords (some 4) [0x41A00000#32]).req.inW.length) ∧
    (givenWords (some 4) [0x41A00000#32]).req.inW = [0x41A00000#32] ∧
    Exceeds (givenWords (some 3) [0x41A00000#32]).cfg (4 * (givenWords (some 3) [0x41A00000#32]).req.inW.length) :=
  ⟨rfl, fits_of rfl, rfl, exceeds_of rfl⟩

/-- 62 values, and 63. -/
theorem witness_SixtyTwoFloatsFitAMessage :
    (Fits (givenWords none (List.replicate 62 0x41A00000#32)).cfg
        (4 * (givenWords none (List.replicate 62 0x41A00000#32)).req.inW.length) ∧
      (givenWords none (List.replicate 62 0x41A00000#32)).req.inW.length ≤ 62) ∧
    62 < (givenWords none (List.replicate 63 0x41A00000#32)).req.inW.length :=
  ⟨⟨fits_of rfl, by decide⟩, by decide⟩

theorem witness_FltDecDeserializesTheBytes :
    ((given (some 4) [0x00#8, 0x00#8, 0xA0#8, 0xC1#8]).cfg.floatOrder = .littleEndian ∧
      Fits (given (some 4) [0x00#8, 0x00#8, 0xA0#8, 0xC1#8]).cfg
        (given (some 4) [0x00#8, 0x00#8, 0xA0#8, 0xC1#8]).req.inp.length ∧
      (given (some 4) [0x00#8, 0x00#8, 0xA0#8, 0xC1#8]).req.inp.length % 4 = 0) ∧
    (Fits (given (some 3) [0x00#8, 0x00#8, 0xA0#8]).cfg (given (some 3) [0x00#8, 0x00#8, 0xA0#8]).req.inp.length ∧
      (given (some 3) [0x00#8, 0x00#8, 0xA0#8]).req.inp.length % 4 ≠ 0) ∧
    Exceeds (given (some 2) [0x00#8, 0x00#8, 0xA0#8]).cfg (given (some 2) [0x00#8, 0x00#8, 0xA0#8]).req.inp.length :=
  ⟨⟨rfl, fits_of rfl, rfl⟩, ⟨fits_of rfl, by decide⟩, exceeds_of rfl⟩

theorem witness_FloatCodecRoundTrips :
    Fits (givenWords (some 4) [0x7FC00001#32]).cfg (4 * (givenWords (some 4) [0x7FC00001#32]).req.inW.length) ∧
    Fits (given (some 4) [0x01#8, 0x00#8, 0xC0#8, 0x7F#8]).cfg
      (given (some 4) [0x01#8, 0x00#8, 0xC0#8, 0x7F#8]).req.inp.length ∧
    (given (some 4) [0x01#8, 0x00#8, 0xC0#8, 0x7F#8]).req.inp.length % 4 = 0 :=
  ⟨fits_of rfl, fits_of rfl, rfl⟩

theorem witness_StreamFeedParsesEveryFrame :
    (Fits (givenStream (some 2) [0x41#8] [0x00#8]).cfg
        ((givenStream (some 2) [0x41#8] [0x00#8]).req.remIn.length +
          (givenStream (some 2) [0x41#8] [0x00#8]).req.inp.length) ∧
      split ((givenStream (some 2) [0x41#8] [0x00#8]).req.remIn ++ (givenStream (some 2) [0x41#8] [0x00#8]).req.inp) =
        ([[0x41#8]], none)) ∧
    Exceeds (givenStream (some 1) [0x41#8] [0x00#8]).cfg
      ((givenStream (some 1) [0x41#8] [0x00#8]).req.remIn.length +
        (givenStream (some 1) [0x41#8] [0x00#8]).req.inp.length) ∧
    (Fits (givenStream (some 0) [] []).cfg 0 ∧ (givenStream (some 0) [] []).req.remIn = [] ∧
      (givenStream (some 0) [] []).req.inp = []) ∧
    (givenStream none [0x41#8] [0x42#8]).req.remIn ++ (givenStream none [0x41#8] [0x42#8]).req.inp ≠ [] ∧
    0x00#8 ∉ (givenStream none [0x41#8] [0x42#8]).req.remIn ++ (givenStream none [0x41#8] [0x42#8]).req.inp ∧
    Fits (given (some 7) []).cfg 7 ∧ (given (some 7) []).cfg.IsHardware :=
  ⟨⟨fits_of rfl, by decide⟩, exceeds_of rfl, ⟨fits_of rfl, rfl, rfl⟩, by decide, by decide, fits_of rfl, by decide⟩

theorem witness_EntriesAreWhatMsgParseReturns :
    Fits (givenStream none [0x41#8] [0x00#8, 0x00#8]).cfg
      ((givenStream none [0x41#8] [0x00#8, 0x00#8]).req.remIn.length +
        (givenStream none [0x41#8] [0x00#8, 0x00#8]).req.inp.length) ∧
    ∃ v, exec .frameSplit ((givenStream none [0x41#8] [0x00#8, 0x00#8]).loadIn [0x41#8, 0x00#8, 0x00#8]) = .next v ∧
      v.resp.frames[1]? = some [] := ⟨fits_of rfl, _, rfl, by decide⟩

/-- A frame cut in two chunks, with an empty chunk between. -/
theorem witness_ChunkingDoesNotMatter :
    (given (some 5) []).req.remIn = [] ∧
    Fits (given (some 5) []).cfg [[0x02#8, 0x01#8], [], [0x04#8, 0x6D#8, 0x00#8]].flatten.length := ⟨rfl, fits_of rfl⟩

/-- Two instances, the second to act first. -/
def twoInstances : Platform := { instances := [given none [], afterSplit], schedule := [1, 0, 1] }

theorem witness_InstancesShareNothing :
    twoInstances.schedule = 1 :: [0, 1] ∧ twoInstances.instances[1]? = some afterSplit ∧
    ∃ q, platformStep twoInstances = .next q := ⟨rfl, rfl, _, rfl⟩

theorem witness_SchedulesDoNotInterfere :
    (∀ k ∈ twoInstances.schedule, k < twoInstances.instances.length) ∧
    twoInstances.instances[0]? = some (given none []) := ⟨by decide, rfl⟩

end Sys2Proof.Tests
end

section
/-! PROOF. What a step, a host action and a command can do (10_state.md), said once: the inversion lemmas of `step`,
`issue` and `perform`, their frames, and what the response registers promise after a command. -/

namespace Sys2Proof.Machine

/-! ### The step -/

theorem step_nil {s : State} (h : s.todo = []) : step s = .next s := by
  simp only [step, hostStep, h]

theorem step_cons {s : State} {a : HostAction} {rest : List HostAction} (h : s.todo = a :: rest) :
    step s = perform a { s with todo := rest } := by
  simp only [step, hostStep, h]

/-- Everything a step can do: stay idle, or perform the host's oldest pending action. -/
theorem step_cases {s t : State} (h : step s = .next t) :
    (s.todo = [] ∧ t = s) ∨ ∃ a rest, s.todo = a :: rest ∧ perform a { s with todo := rest } = .next t := by
  cases ht : s.todo with
  | nil =>
    rw [step_nil ht] at h
    cases h
    exact .inl ⟨rfl, rfl⟩
  | cons a rest => exact .inr ⟨a, rest, rfl, step_cons ht ▸ h⟩

/-! ### Commands and command words -/

/-- R37: a command changes STATUS and the response registers, and nothing else. -/
theorem exec_frame {i : Instr} {s t : State} (h : exec i s = .next t) :
    t = { s with status := t.status, resp := t.resp } :=
  runCommand_frame (exec_eq_runCommand i s ▸ h)

/-- Everything the write of a word to CMD can do: run the command it encodes, or complete with IllegalCommand (R71,
R76). -/
theorem issue_cases {w : Word} {s t : State} (h : issue w s = .next t) :
    (∃ i, decode w = .ok i ∧ exec i (s.storeCmd w) = .next t) ∨
    ((∃ e, decode w = .error e) ∧ t = (s.storeCmd w).fail .illegalCommand) := by
  simp only [issue] at h
  cases hd : decode w with
  | ok i => exact .inl ⟨i, rfl, by rwa [hd] at h⟩
  | error e =>
    rw [hd] at h
    cases h
    exact .inr ⟨⟨e, rfl⟩, rfl⟩

/-- The write of a word to CMD changes CMD, STATUS and the response registers, and nothing else. -/
theorem issue_frame {w : Word} {s t : State} (h : issue w s = .next t) :
    t = { s.storeCmd w with status := t.status, resp := t.resp } := by
  obtain ⟨i, -, hi⟩ | ⟨-, rfl⟩ := issue_cases h
  · exact exec_frame hi
  · rfl

/-! ### Host actions -/

/-- The request registers that a host action leaves (R36, R80, R230). -/
def requestsAfter (a : HostAction) (s : State) : Requests :=
  match a with
  | .writeCmd w => { s.req with cmd := w }
  | .loadIn v => { s.req with inp := v }
  | .loadInW v => { s.req with inW := v }
  | .loadRemIn v => { s.req with remIn := v }
  | .copyRem => { s.req with remIn := if remValidOf s.status then s.resp.remOut else [] }
  | .reset => Requests.atReset
  | .writeReadOnly _ _ | .read _ | .readElems _ _ _ => s.req

theorem perform_requests {a : HostAction} {s t : State} (h : perform a s = .next t) :
    t.cfg = s.cfg ∧ t.req = requestsAfter a s := by
  cases a with
  | writeCmd w =>
    rw [issue_frame h]
    exact ⟨rfl, rfl⟩
  | loadIn | loadInW | loadRemIn | writeReadOnly | read | readElems | copyRem | reset =>
    cases h
    exact ⟨rfl, rfl⟩

/-- R36: everything a host action can do to STATUS and the response registers: issue a command, reset them, or leave
them alone. -/
theorem perform_responses {a : HostAction} {s t : State} (h : perform a s = .next t) :
    (∃ w, a = .writeCmd w ∧ issue w s = .next t) ∨ (a = .reset ∧ t = s.resetRegisters) ∨
    (t.status = s.status ∧ t.resp = s.resp) := by
  cases a with
  | writeCmd w => exact .inl ⟨w, rfl, h⟩
  | reset =>
    cases h
    exact .inr (.inl ⟨rfl, rfl⟩)
  | loadIn | loadInW | loadRemIn | writeReadOnly | read | readElems | copyRem =>
    cases h
    exact .inr (.inr ⟨rfl, rfl⟩)

/-! ### Host reads -/

theorem readReg_of_mem_registerContents {s : State} {r : Reg} {v : RegValue} (h : (r, v) ∈ registerContents s) :
    s.readReg r = v := by
  have hall : ∀ p ∈ registerContents s, s.readReg p.1 = p.2 := by
    simp [registerContents, State.readReg, State.readSeq, State.readLen]
  exact hall _ h

/-! ### The response registers a command's rule names -/

/-- `r` agrees with `before` in every response register that the rule of `i` does not name. -/
structure WritesOnlyNamed (i : Instr) (before r : Responses) : Prop where
  out : i ∉ [.frameEnc, .frameDec, .msgParse, .fltEnc] → (∀ dev pkt, i ≠ .msgBuild dev pkt) → r.out = before.out
  outW : i ≠ .fltDec → r.outW = before.outW
  frames : i ≠ .frameSplit → r.frames = before.frames
  remOut : i ≠ .frameSplit → i ≠ .streamFeed → r.remOut = before.remOut
  header : i ≠ .msgParse → r.resDev = before.resDev ∧ r.resPkt = before.resPkt
  resCrc : i ≠ .crc8 → r.resCrc = before.resCrc
  results : i ≠ .streamFeed → r.results = before.results

theorem WritesOnlyNamed.refl (i : Instr) (r : Responses) : WritesOnlyNamed i r r := by
  constructor <;> simp

theorem commandBody_writesOnlyNamed {i : Instr} {s : State} {r : Responses} {v : Bool}
    (h : commandBody i s = .ok (r, v)) : WritesOnlyNamed i s.resp r := by
  have hb := commandBody_ok h
  cases i with
  | frameEnc | frameSplit | crc8 | fltEnc | streamFeed =>
    obtain ⟨rfl, -⟩ := hb
    constructor <;> simp
  | msgBuild | fltDec =>
    obtain ⟨-, rfl, -⟩ := hb
    constructor <;> simp
  | frameDec | msgParse =>
    obtain ⟨-, -, rfl, -⟩ := hb
    constructor <;> simp

/-- R38: a command's response registers start cleared, so those its rule does not name end cleared. -/
theorem exec_writesOnlyNamed {i : Instr} {s t : State} (h : exec i s = .next t) :
    WritesOnlyNamed i Responses.cleared t.resp := by
  obtain ⟨-, rfl⟩ | ⟨-, c, -, rfl⟩ | ⟨-, r, v, hb, rfl⟩ := exec_cases h
  · exact .refl i _
  · exact .refl i _
  · exact commandBody_writesOnlyNamed hb

/-- Only FRAME.SPLIT and STREAM.FEED set REM_VALID (R32). -/
theorem commandBody_remValid {i : Instr} {s : State} {r : Responses} {v : Bool} (h : commandBody i s = .ok (r, v))
    (hv : v = true) : i = .frameSplit ∨ i = .streamFeed := by
  have hb := commandBody_ok h
  cases i with
  | frameSplit => exact .inl rfl
  | streamFeed => exact .inr rfl
  | frameEnc | crc8 | fltEnc =>
    obtain ⟨-, rfl⟩ := hb
    cases hv
  | msgBuild | fltDec =>
    obtain ⟨-, -, rfl⟩ := hb
    cases hv
  | frameDec | msgParse =>
    obtain ⟨-, -, -, rfl⟩ := hb
    cases hv

/-- R38: a command's body reads neither STATUS nor the response registers it clears. -/
theorem commandBody_clearResponses_withResponses (i : Instr) (s : State) (status : Word) (r : Responses) :
    commandBody i ({ s with status := status, resp := r } : State).clearResponses = commandBody i s.clearResponses := by
  cases i <;> rfl

theorem commandSize_withResponses (i : Instr) (s : State) (status : Word) (r : Responses) :
    commandSize i { s with status := status, resp := r } = commandSize i s := by
  cases i <;> rfl

/-- R38: what STATUS and the response registers held before a command makes no difference. -/
theorem exec_withResponses (i : Instr) (s : State) (status : Word) (r : Responses) :
    exec i { s with status := status, resp := r } = exec i s := by
  rw [exec_eq_runCommand, exec_eq_runCommand, commandSize_withResponses]
  simp only [runCommand, commandBody_clearResponses_withResponses]
  rfl

/-! ### What the response registers promise after a command -/

/-- What an entry of RESULTS promises (R35, R144, R202). -/
structure ResultEntry.Sound (e : ResultEntry) : Prop where
  code : e.code.toNat ≤ 4
  failed : e.code ≠ 0#4 → e.dev = 0x00#8 ∧ e.pkt = 0x00#8 ∧ e.payload = []
  payload : e.payload.length ≤ Config.maxPayload

/-- What the response registers promise beside the bit REM_VALID that a completed command writes (R31, R32, R35,
R108). -/
structure Responses.Sound (r : Responses) (remValid : Bool) : Prop where
  remValid_iff : remValid = true ↔ r.remOut ≠ []
  frames_undelimited : ∀ f ∈ r.frames, Config.delim ∉ f
  remOut_undelimited : Config.delim ∉ r.remOut
  results_sound : ∀ e ∈ r.results, e.Sound

/-- Registers that no FRAME.SPLIT or STREAM.FEED has filled. -/
theorem Responses.Sound.of_nil {r : Responses} (hframes : r.frames = []) (hrem : r.remOut = [])
    (hresults : r.results = []) : r.Sound false := by
  constructor <;> simp [hframes, hrem, hresults]

theorem Responses.cleared_sound : Responses.cleared.Sound false := .of_nil rfl rfl rfl

theorem entryOf_sound (c : Config) (f : Bytes) : (entryOf c f).Sound := by
  obtain ⟨m, hm, he⟩ | ⟨e, hmem, -, he⟩ := entryOf_cases c f
  · rw [he]
    exact ⟨by simp, fun h => absurd rfl h, parse_payload_length hm⟩
  · have hcode : ∀ e ∈ [Code.framingError, .tooShort, .lengthMismatch, .checksumMismatch], e.num.toNat ≤ 4 := by
      decide
    rw [he]
    exact ⟨hcode e hmem, fun _ => ⟨rfl, rfl, rfl⟩, Nat.zero_le _⟩

/-- R108: a remainder is never empty. -/
theorem split_remainder_iff (s : Bytes) : (split s).2.isSome = true ↔ (split s).2.getD [] ≠ [] := by
  rw [split_eq]
  by_cases h : (splitLoop [] s).2 = [] <;> simp [h]

/-- R31, R108: neither a candidate frame nor the remainder holds a delimiter. -/
theorem split_undelimited (s : Bytes) :
    (∀ f ∈ (split s).1, Config.delim ∉ f) ∧ Config.delim ∉ (split s).2.getD [] := by
  obtain ⟨-, hframes, hrest⟩ := splitLoop_spec [] s (by simp)
  rw [split_eq]
  refine ⟨hframes, ?_⟩
  by_cases h : (splitLoop [] s).2 = [] <;> simp [h, hrest]

theorem commandBody_sound {i : Instr} {s : State} {r : Responses} {v : Bool}
    (h : commandBody i s.clearResponses = .ok (r, v)) : r.Sound v := by
  by_cases hi : i = .frameSplit ∨ i = .streamFeed
  · have hb := commandBody_ok h
    obtain rfl | rfl := hi
    · obtain ⟨rfl, rfl⟩ := hb
      obtain ⟨hframes, hrem⟩ := split_undelimited s.req.inp
      exact ⟨split_remainder_iff _, hframes, hrem, by simp [Responses.cleared]⟩
    · obtain ⟨rfl, rfl⟩ := hb
      obtain ⟨-, hrem⟩ := split_undelimited s.feedInput
      exact ⟨split_remainder_iff _, by simp [Responses.cleared], hrem,
        List.forall_mem_map.2 fun f _ => entryOf_sound _ f⟩
  · have hw := commandBody_writesOnlyNamed h
    have hv : v = false := Bool.eq_false_iff.2 fun hv => hi (commandBody_remValid h hv)
    obtain ⟨hsplit, hfeed⟩ := not_or.1 hi
    subst hv
    exact .of_nil (hw.frames hsplit) (hw.remOut hsplit hfeed) (hw.results hfeed)

/-! ### The invariant -/

/-- The invariant speaks of STATUS and the response registers alone. -/
theorem State.Inv.of_eq {s t : State} (h : s.Inv) (hstatus : t.status = s.status) (hresp : t.resp = s.resp) :
    t.Inv := by
  obtain ⟨_, _, _, _, _, _, _, _, _, _, _⟩ := h
  constructor <;> simp only [hstatus, hresp] <;> assumption

theorem Code.num_le (c : Code) : c.num.toNat ≤ 8 := by
  cases c <;> decide

theorem fail_inv (s : State) (c : Code) : (s.fail c).Inv where
  reserved_zero := by simp
  code_assigned := by simpa using c.num_le
  remValid_iff := by simp [Responses.cleared]
  remValid_ok := by simp
  failed_cleared := fun _ => rfl
  notValid_reset := by simp
  frames_undelimited := Responses.cleared_sound.frames_undelimited
  remOut_undelimited := Responses.cleared_sound.remOut_undelimited
  entry_code := fun e he => (Responses.cleared_sound.results_sound e he).code
  entry_failed := fun e he => (Responses.cleared_sound.results_sound e he).failed
  entry_payload := fun e he => (Responses.cleared_sound.results_sound e he).payload

theorem succeed_inv (s : State) {r : Responses} {v : Bool} (h : r.Sound v) : (s.succeed r v).Inv where
  reserved_zero := by simp
  code_assigned := by simpa using Code.ok.num_le
  remValid_iff := by simpa using h.remValid_iff
  remValid_ok := by simp
  failed_cleared := by simp
  notValid_reset := by simp
  frames_undelimited := h.frames_undelimited
  remOut_undelimited := h.remOut_undelimited
  entry_code := fun e he => (h.results_sound e he).code
  entry_failed := fun e he => (h.results_sound e he).failed
  entry_payload := fun e he => (h.results_sound e he).payload

theorem resetRegisters_inv (s : State) : s.resetRegisters.Inv := by
  constructor <;> simp [Responses.cleared, reservedOf, codeOf, remValidOf]

theorem exec_inv {i : Instr} {s t : State} (h : exec i s = .next t) : t.Inv := by
  obtain ⟨-, rfl⟩ | ⟨-, c, -, rfl⟩ | ⟨-, r, v, hb, rfl⟩ := exec_cases h
  · exact fail_inv s _
  · exact fail_inv s c
  · exact succeed_inv s (commandBody_sound hb)

/-- The write of any word to CMD, legal or not, establishes the invariant. -/
theorem issue_inv {w : Word} {s t : State} (h : issue w s = .next t) : t.Inv := by
  obtain ⟨i, -, hi⟩ | ⟨-, rfl⟩ := issue_cases h
  · exact exec_inv hi
  · exact fail_inv _ _

/-! ### The obligations of 10_state.md -/

/-- Settles O3: a write of CMD and a reset establish the invariant, and every other step leaves STATUS and the response
registers alone. -/
theorem stepKeepsTheInvariant : Obligations.StepKeepsTheInvariant := by
  intro s t hinv h
  obtain ⟨-, rfl⟩ | ⟨a, rest, -, ha⟩ := step_cases h
  · exact hinv
  · obtain ⟨w, -, hw⟩ | ⟨-, rfl⟩ | ⟨hstatus, hresp⟩ := perform_responses ha
    · exact issue_inv hw
    · exact resetRegisters_inv _
    · exact hinv.of_eq hstatus hresp

/-- Settles O13, by the frame of a command. -/
theorem commandsNeverWriteRequests : Obligations.CommandsNeverWriteRequests := by
  intro i s t h
  rw [exec_frame h]
  exact ⟨rfl, rfl, rfl, rfl⟩

/-- Settles O14: the request registers after each host action, action by action. -/
theorem requestsChangeOnlyByTheHost : Obligations.RequestsChangeOnlyByTheHost := by
  intro s t h
  obtain ⟨-, rfl⟩ | ⟨a, rest, htodo, ha⟩ := step_cases h
  · exact ⟨rfl, .inl rfl, .inl rfl, .inl rfl, .inl rfl⟩
  · obtain ⟨hcfg, hreq⟩ := perform_requests ha
    refine ⟨hcfg, ?_⟩
    rw [hreq, htodo]
    cases a with
    | writeCmd w => exact ⟨.inr (.inl ⟨w, rest, rfl, rfl⟩), .inl rfl, .inl rfl, .inl rfl⟩
    | loadIn v => exact ⟨.inl rfl, .inr (.inl ⟨v, rest, rfl, rfl⟩), .inl rfl, .inl rfl⟩
    | loadInW v => exact ⟨.inl rfl, .inl rfl, .inr (.inl ⟨v, rest, rfl, rfl⟩), .inl rfl⟩
    | loadRemIn v => exact ⟨.inl rfl, .inl rfl, .inl rfl, .inr (.inl ⟨v, rest, rfl, rfl⟩)⟩
    | copyRem => exact ⟨.inl rfl, .inl rfl, .inl rfl, .inr (.inr (.inl ⟨rest, rfl⟩))⟩
    | reset =>
      exact ⟨.inr (.inr ⟨rest, rfl⟩), .inr (.inr ⟨rest, rfl⟩), .inr (.inr ⟨rest, rfl⟩),
        .inr (.inr (.inr ⟨rest, rfl⟩))⟩
    | writeReadOnly | read | readElems => exact ⟨.inl rfl, .inl rfl, .inl rfl, .inl rfl⟩

/-- Settles O15, by what a host action can do to the response registers. -/
theorem responsesChangeOnlyByCommands : Obligations.ResponsesChangeOnlyByCommands := by
  intro s t h
  obtain ⟨-, rfl⟩ | ⟨a, rest, htodo, ha⟩ := step_cases h
  · exact .inl ⟨rfl, rfl⟩
  · obtain ⟨w, rfl, -⟩ | ⟨rfl, -⟩ | hsame := perform_responses ha
    · exact .inr (.inl ⟨w, rest, htodo⟩)
    · exact .inr (.inr ⟨rest, htodo⟩)
    · exact .inl hsame

/-- Settles O16: no body reads what a command clears, and each writes only what its rule names. -/
theorem commandsStartFromClearedResponses : Obligations.CommandsStartFromClearedResponses := by
  refine ⟨exec_withResponses, fun i s t h => ?_⟩
  have hw := exec_writesOnlyNamed h
  exact ⟨hw.out, hw.outW, hw.frames, hw.remOut, hw.header, hw.resCrc, hw.results⟩

/-- Settles O19: a failed command writes REM_VALID = 0 over a cleared REM_OUT, and one that completes with OK writes
what its body answers. -/
theorem statusFieldsAfterACommand : Obligations.StatusFieldsAfterACommand := by
  intro i s t h
  obtain ⟨-, rfl⟩ | ⟨-, c, -, rfl⟩ | ⟨-, r, v, hb, rfl⟩ := exec_cases h
  · simp [Responses.cleared]
  · simp [Responses.cleared]
  · have hrem := (commandBody_sound hb).remValid_iff
    simp only [State.succeed_status, State.succeed_resp, reservedOf_statusWord, validOf_statusWord,
      remValidOf_statusWord, codeOf_statusWord]
    refine ⟨trivial, trivial, ⟨fun hv => ⟨commandBody_remValid hb hv, rfl, hrem.1 hv⟩, fun ⟨_, _, hne⟩ => hrem.2 hne⟩,
      fun hv => ?_⟩
    by_contra hne
    exact Bool.eq_false_iff.1 hv (hrem.2 hne)

/-- Settles O1: the step of a pending reset is `State.resetRegisters`. -/
theorem resetSetsEveryRegister : Obligations.ResetSetsEveryRegister :=
  ⟨⟨rfl, rfl, rfl⟩, fun _ _ h => step_cons h⟩

/-- Settles O2: the reset state is what the host's reset leaves of it. -/
theorem resetMeetsTheInvariant : Obligations.ResetMeetsTheInvariant :=
  resetRegisters_inv State.reset

/-- Settles O23: the step of a pending load or read-only write is that one update. -/
theorem hostWritesAreWholeRegister : Obligations.HostWritesAreWholeRegister :=
  fun _ _ => ⟨fun _ h => step_cons h, fun _ h => step_cons h, fun _ h => step_cons h, fun _ _ h => step_cons h⟩

/-- Settles O24: the read finds in each register what R24 to R36 name. -/
theorem hostReadsDeliverTheRegister : Obligations.HostReadsDeliverTheRegister := by
  intro s rest r v hmem h
  have hread : State.readReg { s with todo := rest } r = v := readReg_of_mem_registerContents hmem
  rw [step_cons h, ← hread]
  rfl

end Sys2Proof.Machine
end

section
/-! PROOF. The registers as storage (20_memory.md): what a command reads of them and how MAX_IN limits it, the host's
reads of single elements, and the instances of a platform, which share nothing. -/

namespace Sys2Proof.Machine

/-! ### What a command reads -/

/-- R61: two states agree on the parameters and on the request registers that R36 lets command `i` read. -/
structure AgreeOnReads (i : Instr) (s s' : State) : Prop where
  cfg : s.cfg = s'.cfg
  inp : i ≠ .fltEnc → s.req.inp = s'.req.inp
  inW : i = .fltEnc → s.req.inW = s'.req.inW
  remIn : i = .streamFeed → s.req.remIn = s'.req.remIn

theorem AgreeOnReads.commandSize_eq {i : Instr} {s s' : State} (h : AgreeOnReads i s s') :
    commandSize i s = commandSize i s' := by
  cases i with
  | fltEnc => simp only [commandSize, State.inWSize, h.inW rfl]
  | streamFeed => simp only [commandSize, State.feedSize, h.inp (by simp), h.remIn rfl]
  | frameEnc | frameDec | frameSplit | crc8 | msgBuild | msgParse | fltDec =>
    simp only [commandSize, State.inSize, h.inp (by simp)]

theorem AgreeOnReads.commandBody_eq {i : Instr} {s s' : State} (h : AgreeOnReads i s s') (hresp : s.resp = s'.resp) :
    commandBody i s = commandBody i s' := by
  cases i with
  | fltEnc => simp only [commandBody, fltEncBody, h.cfg, h.inW rfl, hresp]
  | streamFeed =>
    simp only [commandBody, streamFeedBody, State.feedInput, h.cfg, h.inp (by simp), h.remIn rfl, hresp]
  | frameEnc | frameDec | frameSplit | crc8 | msgBuild | msgParse | fltDec =>
    simp only [commandBody, frameEncBody, frameDecBody, frameSplitBody, crc8Body, msgBuildBody, msgParseBody,
      fltDecBody, h.cfg, h.inp (by simp), hresp]

theorem AgreeOnReads.clearResponses {i : Instr} {s s' : State} (h : AgreeOnReads i s s') :
    AgreeOnReads i s.clearResponses s'.clearResponses :=
  ⟨h.cfg, h.inp, h.inW, h.remIn⟩

/-- Where the capacity and the body's answer are the same, so are STATUS and the response registers. -/
theorem runCommand_responses_eq {size : Nat} {body : State → Except Code (Responses × Bool)} {s s' t t' : State}
    (hcfg : s.cfg = s'.cfg) (hbody : body s.clearResponses = body s'.clearResponses)
    (h : runCommand size body s = .next t) (h' : runCommand size body s' = .next t') :
    t.status = t'.status ∧ t.resp = t'.resp := by
  rcases fits_or_exceeds s.cfg size with hf | he
  · have hf' : Fits s'.cfg size := hcfg ▸ hf
    cases hb : body s'.clearResponses with
    | error c =>
      rw [runCommand_error hf (hbody.trans hb)] at h
      rw [runCommand_error hf' hb] at h'
      cases h; cases h'
      exact ⟨rfl, rfl⟩
    | ok p =>
      rw [runCommand_ok hf (hbody.trans hb)] at h
      rw [runCommand_ok hf' hb] at h'
      cases h; cases h'
      exact ⟨rfl, rfl⟩
  · rw [runCommand_exceeds he] at h
    rw [runCommand_exceeds (hcfg ▸ he)] at h'
    cases h; cases h'
    exact ⟨rfl, rfl⟩

/-! ### The capacity -/

theorem Fits.not_exceeds {c : Config} {size : Nat} (h : Fits c size) : ¬ Exceeds c size :=
  fun ⟨bound, hb, hlt⟩ => absurd (h bound hb) (by omega)

/-- R59: only FLT.ENC and STREAM.FEED have an input other than IN. -/
theorem commandSize_inp {i : Instr} (s : State) (hflt : i ≠ .fltEnc) (hfeed : i ≠ .streamFeed) :
    commandSize i s = s.req.inp.length := by
  cases i with
  | fltEnc => exact absurd rfl hflt
  | streamFeed => exact absurd rfl hfeed
  | frameEnc | frameDec | frameSplit | crc8 | msgBuild | msgParse | fltDec => rfl

theorem exec_exceeds {i : Instr} {s : State} (h : Exceeds s.cfg (commandSize i s)) :
    exec i s = .next (s.fail .capacityExceeded) := by
  rw [exec_eq_runCommand, runCommand_exceeds h]

theorem Code.num_eq_eight (c : Code) : c.num = 8#4 ↔ c = .capacityExceeded := by
  cases c <;> decide

/-- R59: no command's own checks raise CapacityExceeded. -/
theorem commandBody_ne_capacityExceeded (i : Instr) (s : State) : commandBody i s ≠ .error .capacityExceeded := by
  intro h
  obtain ⟨-, hc⟩ | ⟨-, hc⟩ | ⟨-, hc⟩ | ⟨-, hc⟩ := commandBody_error h <;> simp at hc

theorem exec_fits_code {i : Instr} {s t : State} (hf : Fits s.cfg (commandSize i s)) (h : exec i s = .next t) :
    codeOf t.status ≠ 8#4 := by
  obtain ⟨he, -⟩ | ⟨-, c, hb, rfl⟩ | ⟨-, r, v, -, rfl⟩ := exec_cases h
  · exact absurd he hf.not_exceeds
  · rw [State.fail_status, codeOf_statusWord, Ne, Code.num_eq_eight]
    rintro rfl
    exact commandBody_ne_capacityExceeded i _ hb
  · simp [Code.num_eq_eight]

/-- R100: stuffing at most doubles a sequence. -/
theorem stuff_length_le (c : Config) (s : Bytes) : (stuff c s).length ≤ 2 * s.length := by
  induction s with
  | nil => simp [stuff]
  | cons b s ih =>
    by_cases hb : b = Config.delim ∨ b = c.esc
    · rw [stuff_cons_special c hb]
      simp only [List.length_cons]
      omega
    · rw [stuff_cons_plain c hb]
      simp only [List.length_cons]
      omega

theorem frameOf_length_le (c : Config) (s : Bytes) : (frameOf c s).length ≤ 2 * s.length + 1 := by
  have := stuff_length_le c s
  simpa [frameOf]

/-! ### Reads of single elements -/

theorem slice_middle {α : Type} (pre mid post : List α) :
    slice (pre ++ mid ++ post) pre.length mid.length = mid := by
  simp [slice]

section ReadElems

variable {s : State} {r : SeqReg} {i n : Nat}

theorem readElems_bytes {v : Bytes} (h : s.readSeq r = .bytes v) : s.readElems r i n = .bytes (slice v i n) := by
  simp only [State.readElems, h]

theorem readElems_words {v : List Word} (h : s.readSeq r = .words v) :
    s.readElems r i n = .words (slice v i n) := by
  simp only [State.readElems, h]

theorem readElems_frames {v : List Bytes} (h : s.readSeq r = .frames v) :
    s.readElems r i n = .frames (slice v i n) := by
  simp only [State.readElems, h]

theorem readElems_results {v : List ResultEntry} (h : s.readSeq r = .results v) :
    s.readElems r i n = .results (slice v i n) := by
  simp only [State.readElems, h]

/-- R51: the step of a pending read of elements delivers them and has no other effect. -/
theorem step_readElems {rest : List HostAction} {v : RegValue} (htodo : s.todo = .readElems r i n :: rest)
    (hv : s.readElems r i n = v) : step s = .next { s with todo := rest, seen := s.seen ++ [v] } := by
  rw [step_cons htodo, ← hv]
  rfl

end ReadElems

/-! ### Every step completes -/

theorem exec_next (i : Instr) (s : State) : ∃ t, exec i s = .next t := by
  rw [exec_eq_runCommand]
  exact runCommand_next _ _ s

theorem issue_next (w : Word) (s : State) : ∃ t, issue w s = .next t := by
  simp only [issue]
  cases decode w with
  | ok i => exact exec_next i _
  | error e => exact ⟨_, rfl⟩

theorem perform_next (a : HostAction) (s : State) : ∃ t, perform a s = .next t := by
  cases a with
  | writeCmd w => exact issue_next w s
  | loadIn | loadInW | loadRemIn | writeReadOnly | read | readElems | copyRem | reset => exact ⟨_, rfl⟩

/-- R200: the machine never stops. -/
theorem step_next (s : State) : ∃ t, step s = .next t := by
  cases h : s.todo with
  | nil => exact ⟨s, step_nil h⟩
  | cons a rest =>
    rw [step_cons h]
    exact perform_next a _

theorem core_run_succ {s t : State} (h : step s = .next t) (n : Nat) :
    Host.Core.run Sys2Proof.core (n + 1) s = Host.Core.run Sys2Proof.core n t := by
  have hcore : Sys2Proof.core.step s = .next t := h
  simp only [Host.Core.run, hcore]

/-! ### Several instances -/

/-- R64: the scheduled codec takes its own step, and its state alone is replaced. -/
theorem platformStep_cons {instances : List State} {k : Nat} {rest : List Nat} {s t : State}
    (hk : instances[k]? = some s) (hs : step s = .next t) :
    platformStep ⟨instances, k :: rest⟩ = .next ⟨instances.set k t, rest⟩ := by
  simp only [platformStep, hk, hs]

/-- R64: each codec's state in `after` is the one it reaches from `before` when it alone takes as many steps as
`schedule` names it. -/
def RunsAlone (schedule : List Nat) (before after : List State) : Prop :=
  ∀ (j : Nat) (s : State), before[j]? = some s →
    ∃ t, Host.Core.run Sys2Proof.core (schedule.count j) s = .next t ∧ after[j]? = some t

/-- A step of codec `k` before a schedule is one more step of `k` alone, and none of any other codec. -/
theorem RunsAlone.cons {k : Nat} {schedule : List Nat} {before after : List State} {s t : State}
    (hk : before[k]? = some s) (hs : step s = .next t) (h : RunsAlone schedule (before.set k t) after) :
    RunsAlone (k :: schedule) before after := by
  intro j u hj
  by_cases hjk : k = j
  · subst hjk
    obtain rfl : s = u := Option.some.inj (hk.symm.trans hj)
    have hset : (before.set k t)[k]? = some t := by simp [(List.getElem?_eq_some_iff.1 hk).1]
    rw [List.count_cons_self, core_run_succ hs]
    exact h k t hset
  · rw [List.count_cons_of_ne hjk]
    exact h j u ((List.getElem?_set_ne hjk).trans hj)

theorem platformRun_runsAlone (schedule : List Nat) (instances : List State)
    (hvalid : ∀ k ∈ schedule, k < instances.length) :
    ∃ q, platformRun schedule.length ⟨instances, schedule⟩ = .next q ∧
      q.instances.length = instances.length ∧ RunsAlone schedule instances q.instances := by
  induction schedule generalizing instances with
  | nil => exact ⟨_, rfl, rfl, fun j s hj => ⟨s, rfl, hj⟩⟩
  | cons k rest ih =>
    obtain ⟨hk, hrest⟩ := List.forall_mem_cons.1 hvalid
    obtain ⟨t, hs⟩ := step_next instances[k]
    have hget : instances[k]? = some instances[k] := List.getElem?_eq_getElem hk
    obtain ⟨q, hrun, hlen, halone⟩ := ih (instances.set k t) (by simpa using hrest)
    refine ⟨q, ?_, by simpa using hlen, halone.cons hget hs⟩
    simp only [List.length_cons, platformRun, platformStep_cons hget hs, hrun]

/-! ### The obligations of 20_memory.md -/

/-- Settles O54, by induction on the schedule: each step is one step of the codec it names. -/
theorem schedulesDoNotInterfere : Obligations.SchedulesDoNotInterfere :=
  fun p hvalid => platformRun_runsAlone p.schedule p.instances hvalid

/-- Settles O17: the size and the body of a command see only what it reads. -/
theorem responsesDependOnlyOnRequests : Obligations.ResponsesDependOnlyOnRequests := by
  intro i s s' t t' hcfg hinp hinW hremIn h h'
  have hagree : AgreeOnReads i s s' := ⟨hcfg, hinp, hinW, hremIn⟩
  rw [exec_eq_runCommand] at h h'
  rw [hagree.commandSize_eq] at h
  exact runCommand_responses_eq hcfg (hagree.clearResponses.commandBody_eq rfl) h h'

/-- Settles O22: the capacity check alone raises CapacityExceeded, and stuffing at most doubles an input that fits. -/
theorem capacityLimitsTheInput : Obligations.CapacityLimitsTheInput := by
  refine ⟨fun i s hex => ?_, fun i s t hinp hinW hfeed h => exec_fits_code ?_ h,
    fun i s t hnone h => exec_fits_code (fun bound hb => ?_) h, fun s t bound hbound h => ?_⟩
  · have hsize : Exceeds s.cfg (commandSize i s) := by
      obtain ⟨hflt, hfeed, he⟩ | ⟨rfl, he⟩ | ⟨rfl, he⟩ := hex
      · rwa [commandSize_inp s hflt hfeed]
      · exact he
      · exact he
    exact exec_exceeds hsize
  · by_cases hi : i = .fltEnc
    · subst hi
      exact hinW rfl
    · by_cases hi' : i = .streamFeed
      · subst hi'
        exact hfeed rfl
      · rw [commandSize_inp s hi hi']
        exact hinp hi hi'
  · simp [hnone] at hb
  · obtain ⟨-, rfl⟩ | ⟨-, c, -, rfl⟩ | ⟨hf, r, v, hb, rfl⟩ := exec_cases h
    · exact Nat.zero_le _
    · exact Nat.zero_le _
    · obtain ⟨rfl, -⟩ := commandBody_ok hb
      have hin : s.req.inp.length ≤ bound := hf bound hbound
      have hout := frameOf_length_le s.cfg s.req.inp
      simp only [State.succeed_resp, State.clearResponses_cfg, State.clearResponses_req]
      omega

/-- Settles O25: the whole content of each sequence register, and the slice of it that a read of elements takes. -/
theorem elementReadsAgreeWithWholeReads : Obligations.ElementReadsAgreeWithWholeReads := by
  refine ⟨fun s rest r v hmem pre mid post hv htodo => ?_, fun s rest r v hmem pre mid post hv htodo => ?_,
    fun s rest => ⟨fun pre mid post hv htodo => ?_, fun pre mid post hv htodo => ?_⟩⟩
  · have hall : ∀ p ∈ [(SeqReg.inp, s.req.inp), (.remIn, s.req.remIn), (.out, s.resp.out), (.remOut, s.resp.remOut)],
        s.readSeq p.1 = .bytes p.2 := by simp [State.readSeq]
    exact step_readElems htodo (by rw [readElems_bytes (hall _ hmem), hv, slice_middle])
  · have hall : ∀ p ∈ [(SeqReg.inW, s.req.inW), (.outW, s.resp.outW)], s.readSeq p.1 = .words p.2 := by
      simp [State.readSeq]
    exact step_readElems htodo (by rw [readElems_words (hall _ hmem), hv, slice_middle])
  · exact step_readElems htodo (by rw [readElems_frames rfl, hv, slice_middle])
  · exact step_readElems htodo (by rw [readElems_results rfl, hv, slice_middle])

/-- Settles O53: the platform's step is the scheduled codec's, put back in its place. -/
theorem instancesShareNothing : Obligations.InstancesShareNothing := by
  intro ⟨instances, schedule⟩ q k rest s hsched hk h
  obtain rfl : schedule = k :: rest := hsched
  obtain ⟨t, hs⟩ := step_next s
  rw [platformStep_cons hk hs] at h
  cases h
  have hlt : k < instances.length := (List.getElem?_eq_some_iff.1 hk).1
  exact ⟨rfl, List.length_set, ⟨t, hs, by simp [hlt]⟩, fun j hj => List.getElem?_set_ne (Ne.symm hj)⟩

end Sys2Proof.Machine
end

section
/-! PROOF. The encoding of the commands (30_encoding.md): decoding and encoding, the rows of R75 by match and mask, the
illegal words, and the host actions that issue a command and carry the remainder. -/

namespace Sys2Proof

/-! ### Decoding and encoding -/

/-- R70, R75: a word decodes to a command exactly when it is that command's encoding. -/
theorem decode_eq_ok_iff_eq_encode (w : Word) (i : Instr) : decode w = .ok i ↔ w = encode i :=
  (decode_eq_ok_iff w i).trans (eq_wordOf_iff w (fieldsFor i)).symm

@[simp] theorem decode_encode (i : Instr) : decode (encode i) = .ok i :=
  (decode_eq_ok_iff_eq_encode _ i).2 rfl

/-- R79's encoding of MSG.BUILD. -/
theorem encode_msgBuild (dev pkt : Byte) :
    encode (.msgBuild dev pkt) = 0x11#32 ||| dev.setWidth 32 <<< 8 ||| pkt.setWidth 32 <<< 16 := by
  simp [encode, wordOf, fieldsFor, opcode]

/-- R76: the decoder is total. -/
theorem decode_error_iff (w : Word) : (∃ e, decode w = .error e) ↔ ¬ ∃ i, decode w = .ok i := by
  cases decode w <;> simp

/-! ### The rows of R75 -/

theorem fieldsOf_inj {w v : Word} : fieldsOf w = fieldsOf v ↔ w = v :=
  (Function.LeftInverse.injective wordOf_fieldsOf).eq_iff

/-- A mask acts on each of the four fields. -/
theorem fieldsOf_and (w m : Word) :
    fieldsOf (w &&& m) =
      { op := (fieldsOf w).op &&& (fieldsOf m).op, dev := (fieldsOf w).dev &&& (fieldsOf m).dev
        pkt := (fieldsOf w).pkt &&& (fieldsOf m).pkt, rsv := (fieldsOf w).rsv &&& (fieldsOf m).rsv } := by
  simp [fieldsOf, BitVec.extractLsb'_and]

/-- The mask of MSG.BUILD's row leaves OP and RSV. -/
theorem and_msgBuildMask_eq_iff (w : Word) :
    w &&& 0xFF0000FF#32 = 0x00000011#32 ↔ (fieldsOf w).op = 0x11#8 ∧ (fieldsOf w).rsv = 0x00#8 := by
  have hmask : fieldsOf 0xFF0000FF#32 = ⟨BitVec.allOnes 8, 0x00#8, 0x00#8, BitVec.allOnes 8⟩ := by decide
  have hmatch : fieldsOf 0x00000011#32 = ⟨0x11#8, 0x00#8, 0x00#8, 0x00#8⟩ := by decide
  rw [← fieldsOf_inj, fieldsOf_and, hmask, hmatch]
  simp only [BitVec.and_allOnes, BitVec.and_zero, CmdFields.mk.injEq, true_and]

/-- MSG.BUILD is the only mnemonic with more than one command. -/
theorem eq_of_mnemonic_eq {i j : Instr} (hj : mnemonic j ≠ "MSG.BUILD") (h : mnemonic i = mnemonic j) : i = j := by
  cases j with
  | msgBuild => exact absurd rfl hj
  | frameEnc | frameDec | frameSplit | crc8 | msgParse | fltEnc | fltDec | streamFeed =>
    cases i <;> simp_all [mnemonic]

/-- R76 on a row whose mask is the whole word. -/
theorem meets_fullMask_iff {j : Instr} (hj : mnemonic j ≠ "MSG.BUILD") (w : Word) :
    w &&& 0xFFFFFFFF#32 = encode j ↔ ∃ i, decode w = .ok i ∧ mnemonic i = mnemonic j := by
  have hfull : w &&& 0xFFFFFFFF#32 = w := BitVec.and_allOnes
  rw [hfull, ← decode_eq_ok_iff_eq_encode]
  constructor
  · exact fun h => ⟨j, h, rfl⟩
  · rintro ⟨i, hi, hm⟩
    rwa [← eq_of_mnemonic_eq hj hm]

/-- R76 on MSG.BUILD's row. -/
theorem meets_msgBuildMask_iff (w : Word) :
    w &&& 0xFF0000FF#32 = 0x00000011#32 ↔ ∃ i, decode w = .ok i ∧ mnemonic i = "MSG.BUILD" := by
  rw [and_msgBuildMask_eq_iff]
  constructor
  · rintro ⟨hop, hrsv⟩
    refine ⟨.msgBuild (fieldsOf w).dev (fieldsOf w).pkt, (decode_eq_ok_iff w _).2 ?_, rfl⟩
    simp only [fieldsFor, opcode, ← hop, ← hrsv]
  · rintro ⟨i, hi, hm⟩
    rw [(decode_eq_ok_iff w i).1 hi]
    cases i with
    | msgBuild => exact ⟨rfl, rfl⟩
    | frameEnc | frameDec | frameSplit | crc8 | msgParse | fltEnc | fltDec | streamFeed => simp [mnemonic] at hm

/-- R76: meeting a row's match and mask is decoding to a command of its mnemonic. -/
theorem meets_row_iff (w : Word) {row : Word × Word × String} (hrow : row ∈ opcodeRows) :
    w &&& row.2.1 = row.1 ↔ ∃ i, decode w = .ok i ∧ mnemonic i = row.2.2 := by
  simp only [opcodeRows, List.mem_cons, List.not_mem_nil, or_false] at hrow
  obtain rfl | rfl | rfl | rfl | rfl | rfl | rfl | rfl | rfl := hrow
  · exact meets_fullMask_iff (j := .frameEnc) (by decide) w
  · exact meets_fullMask_iff (j := .frameDec) (by decide) w
  · exact meets_fullMask_iff (j := .frameSplit) (by decide) w
  · exact meets_fullMask_iff (j := .crc8) (by decide) w
  · exact meets_msgBuildMask_iff w
  · exact meets_fullMask_iff (j := .msgParse) (by decide) w
  · exact meets_fullMask_iff (j := .fltEnc) (by decide) w
  · exact meets_fullMask_iff (j := .fltDec) (by decide) w
  · exact meets_fullMask_iff (j := .streamFeed) (by decide) w

/-- R75: each row has a mnemonic of its own. -/
theorem row_eq_of_mnemonic_eq :
    ∀ row ∈ opcodeRows, ∀ row' ∈ opcodeRows, row.2.2 = row'.2.2 → row = row' := by
  decide

/-- R75: every command has a row. -/
theorem exists_row (i : Instr) : ∃ row ∈ opcodeRows, row.2.2 = mnemonic i := by
  cases i <;> simp [opcodeRows, mnemonic]

/-! ### The illegal words -/

set_option maxRecDepth 3000 in
/-- R77: of the 256 values of OP, all but the 9 of R75 are unassigned. -/
theorem unassignedOpcodes_count :
    ((List.range 256).filter fun op => decide (BitVec.ofNat 8 op ∉ CmdFields.assignedOpcodes)).length = 247 := by
  decide

end Sys2Proof

namespace Sys2Proof.Machine

/-! ### Issuing a command word -/

theorem issue_ok {w : Word} {i : Instr} (h : decode w = .ok i) (s : State) :
    issue w s = exec i (s.storeCmd w) := by
  simp only [issue, h]

/-- R76, R205: an illegal word leaves the state of any failed command. -/
theorem issue_error {w : Word} {e : DecodeError} (h : decode w = .error e) (s : State) :
    issue w s = .next ((s.storeCmd w).fail .illegalCommand) := by
  simp only [issue, h, illegalCommand, State.clearResponses_fail]

/-- R28, R76: the STATUS of an illegal word. -/
theorem statusWord_illegalCommand : statusWord .illegalCommand false = 0x27#32 := by decide

/-- R71: the step of a pending write of a legal word. -/
theorem step_writeCmd_ok {s : State} {w : Word} {rest : List HostAction} {i : Instr}
    (htodo : s.todo = .writeCmd w :: rest) (h : decode w = .ok i) :
    step s = exec i (({ s with todo := rest } : State).storeCmd w) := by
  rw [step_cons htodo]
  exact issue_ok h _

/-- R76: the step of a pending write of an illegal word. -/
theorem step_writeCmd_error {s : State} {w : Word} {rest : List HostAction} {e : DecodeError}
    (htodo : s.todo = .writeCmd w :: rest) (h : decode w = .error e) :
    step s = .next ((({ s with todo := rest } : State).storeCmd w).fail .illegalCommand) := by
  rw [step_cons htodo]
  exact issue_error h _

/-- R24: loading a whole 32-bit word puts its write to CMD before the host's other actions. -/
theorem withFetchWord_eq (s : State) (w : Word) :
    s.withFetchWord 32 w.toNat = { s with todo := .writeCmd w :: s.todo } := by
  rw [State.withFetchWord, withNextCommand, Nat.mod_eq_of_lt w.isLt, BitVec.ofNat_toNat, BitVec.setWidth_eq]

/-! ### The obligations of 30_encoding.md -/

/-- Settles O11: decoding to a command is being its encoding. -/
theorem encodeAndDecodeAreInverse : Obligations.EncodeAndDecodeAreInverse :=
  ⟨decode_encode, fun w i h => ((decode_eq_ok_iff_eq_encode w i).1 h).symm⟩

/-- Settles O8: row by row; two rows that one word meets have one mnemonic, and a word that meets none decodes to no
command. -/
theorem wordsDecodeByMatchAndMask : Obligations.WordsDecodeByMatchAndMask := by
  refine ⟨fun w row hrow => meets_row_iff w hrow, fun w row hrow row' hrow' h h' => ?_,
    fun s w rest htodo hnone => ?_⟩
  · obtain ⟨i, hi, hm⟩ := (meets_row_iff w hrow).1 h
    obtain ⟨j, hj, hm'⟩ := (meets_row_iff w hrow').1 h'
    obtain rfl : i = j := Except.ok.inj (hi.symm.trans hj)
    exact row_eq_of_mnemonic_eq row hrow row' hrow' (hm.symm.trans hm')
  · have hillegal : ¬ ∃ i, decode w = .ok i := by
      rintro ⟨i, hi⟩
      obtain ⟨row, hrow, hm⟩ := exists_row i
      exact hnone row hrow ((meets_row_iff w hrow).2 ⟨i, hi, hm.symm⟩)
    obtain ⟨e, he⟩ := (decode_error_iff w).2 hillegal
    rw [step_writeCmd_error htodo he, State.fail, statusWord_illegalCommand]
    rfl

/-- Settles O9: the illegal words are those whose fields are not well formed. -/
theorem illegalWordsAreExactly : Obligations.IllegalWordsAreExactly := by
  refine ⟨fun w => ?_, unassignedOpcodes_count⟩
  rw [decode_error_iff, decode_ok_iff_wellFormed]
  simp only [CmdFields.wellFormed, CmdFields.opAssigned, CmdFields.assignedOpcodes, CmdFields.rsvZero,
    CmdFields.operandsAllowed, fieldsOf, Bool.and_eq_true, Bool.or_eq_true, List.contains_iff_mem, beq_iff_eq,
    not_and_or, not_or, or_assoc]

/-- Settles O6: the word of the pending write is stored, and the command it decodes to runs. -/
theorem stepRunsTheDecodedCommand : Obligations.StepRunsTheDecodedCommand := by
  refine ⟨fun s w rest i htodo h => step_writeCmd_ok htodo h, fun s w i h => ?_⟩
  rw [withFetchWord_eq, step_writeCmd_ok rfl h]
  rfl

/-- Settles O10: the fields of a word that decodes to MSG.BUILD are the command's. -/
theorem operandsAreTheWordsFields : Obligations.OperandsAreTheWordsFields := by
  intro w dev pkt h
  have hfields : fieldsOf w = fieldsFor (.msgBuild dev pkt) := (decode_eq_ok_iff w _).1 h
  exact ⟨(congrArg CmdFields.dev hfields).symm, (congrArg CmdFields.pkt hfields).symm⟩

/-- Settles O12: each word is the encoding of its command. -/
theorem tableWordsDecode : Obligations.TableWordsDecode :=
  ⟨decode_encode .frameEnc, decode_encode .frameDec, decode_encode .frameSplit, decode_encode .crc8,
    decode_encode (.msgBuild 0x0D#8 0x03#8), decode_encode .msgParse, decode_encode .fltEnc, decode_encode .fltDec,
    decode_encode .streamFeed, fun dev pkt => encode_msgBuild dev pkt ▸ decode_encode (.msgBuild dev pkt)⟩

/-- Settles O26: the step of a pending COPY loads REM_IN with what REM_VALID lets it carry. -/
theorem copyCarriesTheRemainder : Obligations.CopyCarriesTheRemainder := by
  refine fun s rest htodo => ⟨fun hv => ?_, fun hv => ?_⟩
  · rw [step_cons htodo, perform, State.copyRem, if_pos hv]
    rfl
  · rw [step_cons htodo, perform, State.copyRem, if_neg (Bool.eq_false_iff.1 hv)]
    rfl

end Sys2Proof.Machine
end

section
/-! PROOF. The Framer (40_framer.md): the length of a stuffed buffer and where its escape bytes stand, destuffing as the
inverse of stuffing, splitting as the one way to cut a buffer at its delimiters, and the three commands. -/

namespace Sys2Proof

/-! ### This hardware's parameters -/

namespace Config.IsHardware

variable {c : Config}

theorem esc_eq (hc : c.IsHardware) : c.esc = 0x7D#8 := congrArg Config.esc hc

theorem mask_eq (hc : c.IsHardware) : c.mask = 0x20#8 := congrArg Config.mask hc

/-- Stuffing on this hardware is stuffing with the values of R9. -/
theorem stuff_eq (hc : c.IsHardware) (s : Bytes) : Machine.stuff c s = Machine.stuff reference s :=
  (congrArg (Machine.stuff · s) hc).trans (Machine.stuff_withMaxIn reference c.maxIn s)

/-- Destuffing on this hardware is destuffing with the values of R9. -/
theorem destuff_eq (hc : c.IsHardware) (f : Bytes) : Machine.destuff c f = Machine.destuff reference f :=
  (congrArg (Machine.destuff · f) hc).trans (Machine.destuff_withMaxIn reference c.maxIn f)

end Config.IsHardware

end Sys2Proof

namespace Sys2Proof.Machine

/-! ### Stuffing -/

/-- R100: stuffing works byte by byte. -/
theorem stuff_eq_flatMap (c : Config) (s : Bytes) :
    stuff c s = s.flatMap fun b => if b = Config.delim ∨ b = c.esc then [c.esc, b ^^^ c.mask] else [b] := by
  induction s with
  | nil => rfl
  | cons b s ih =>
    by_cases hb : b = Config.delim ∨ b = c.esc
    · simp [stuff_cons_special c hb, hb, ih]
    · simp [stuff_cons_plain c hb, hb, ih]

/-- R100: a buffer without DELIM and ESC is copied unchanged. -/
theorem stuff_eq_self {c : Config} {s : Bytes} (h : ∀ b ∈ s, ¬(b = Config.delim ∨ b = c.esc)) : stuff c s = s := by
  induction s with
  | nil => rfl
  | cons b s ih =>
    rw [List.forall_mem_cons] at h
    rw [stuff_cons_plain c h.1, ih h.2]

/-- R103: each escaped byte adds one byte. -/
theorem stuff_length (c : Config) (s : Bytes) :
    (stuff c s).length = s.length + s.countP (fun b => b = Config.delim ∨ b = c.esc) := by
  induction s with
  | nil => rfl
  | cons b s ih =>
    by_cases hb : b = Config.delim ∨ b = c.esc
    · rw [stuff_cons_special c hb, List.countP_cons_of_pos (by simpa using hb)]
      simp only [List.length_cons, ih]
      omega
    · rw [stuff_cons_plain c hb, List.countP_cons_of_neg (by simpa using hb)]
      simp only [List.length_cons, ih]
      omega

/-- R102: a buffer of only DELIM and ESC doubles. -/
theorem stuff_length_of_escaped {c : Config} {s : Bytes} (h : ∀ b ∈ s, b = Config.delim ∨ b = c.esc) :
    (stuff c s).length = 2 * s.length := by
  have hall : s.countP (fun b => b = Config.delim ∨ b = c.esc) = s.length :=
    List.countP_eq_length.2 fun b hb => decide_eq_true (h b hb)
  rw [stuff_length, hall, two_mul]

/-- R10: neither escaped code is ESC. -/
theorem legal_codes_ne_esc {c : Config} (hc : c.Legal) :
    Config.delim ^^^ c.mask ≠ c.esc ∧ c.esc ^^^ c.mask ≠ c.esc := by
  obtain ⟨-, hmask, hne⟩ := hc
  exact ⟨by simpa [Config.delim] using hne, by simpa using hmask⟩

/-- R103: in a stuffed buffer an escape byte is followed by an escaped code. -/
theorem stuff_esc_followed {c : Config} (hc : c.Legal) (s : Bytes) (k : Nat) (hk : (stuff c s)[k]? = some c.esc) :
    (stuff c s)[k + 1]? = some (Config.delim ^^^ c.mask) ∨ (stuff c s)[k + 1]? = some (c.esc ^^^ c.mask) := by
  induction s generalizing k with
  | nil => simp at hk
  | cons b s ih =>
    by_cases hb : b = Config.delim ∨ b = c.esc
    · rw [stuff_cons_special c hb] at hk ⊢
      match k with
      | 0 => exact hb.imp (congrArg fun b => some (b ^^^ c.mask)) (congrArg fun b => some (b ^^^ c.mask))
      | 1 =>
        obtain ⟨hdelim, hesc⟩ := legal_codes_ne_esc hc
        have hcode : b ^^^ c.mask = c.esc := Option.some.inj hk
        obtain rfl | rfl := hb
        · exact absurd hcode hdelim
        · exact absurd hcode hesc
      | k + 2 => exact ih k hk
    · rw [stuff_cons_plain c hb] at hk ⊢
      match k with
      | 0 => exact absurd (.inr (Option.some.inj hk)) hb
      | k + 1 => exact ih k hk

/-! ### Destuffing -/

/-- R107: the scan reads a stuffed buffer back. -/
theorem destuffBody_stuff {c : Config} (hc : c.Legal) (s : Bytes) : destuffBody c (stuff c s) = .ok s := by
  have h := destuffBody_stuff_append hc s []
  rwa [List.append_nil, destuffBody.eq_def c [], Except.map, List.append_nil] at h

/-- R107: the scan reads only the stuffing of a buffer back to it. -/
theorem destuffBody_eq_ok_iff {c : Config} (hc : c.Legal) (f s : Bytes) : destuffBody c f = .ok s ↔ f = stuff c s := by
  constructor
  · intro h
    obtain ⟨t, ht, rfl⟩ | ⟨he, -⟩ := destuffBody_cases hc f
    · rw [Except.ok.inj (ht.symm.trans h)]
    · exact absurd (he.symm.trans h) (by simp)
  · rintro rfl
    exact destuffBody_stuff hc s

/-- R105: the scan fails exactly where a malformed rest follows a stuffed part. -/
theorem destuffBody_eq_error_iff {c : Config} (hc : c.Legal) (f : Bytes) :
    destuffBody c f = .error .framingError ↔ ∃ decoded rest, f = stuff c decoded ++ rest ∧ Malformed c rest := by
  constructor
  · intro h
    obtain ⟨s, hs, -⟩ | ⟨-, hmal⟩ := destuffBody_cases hc f
    · exact absurd (hs.symm.trans h) (by simp)
    · exact hmal
  · rintro ⟨decoded, rest, rfl, hmal⟩
    rw [destuffBody_stuff_append hc, destuffBody_malformed hc hmal]
    rfl

theorem stripDelim_of_ne_concat {f : Bytes} (h : ∀ g, f ≠ g ++ [Config.delim]) : stripDelim f = f := by
  rw [stripDelim, if_neg]
  intro hlast
  obtain ⟨g, hg⟩ := List.getLast?_eq_some_iff.1 hlast
  exact h g hg

/-! ### Splitting -/

/-- R108: `s` cut at every delimiter gives `frames`, and `rem` as what follows its last delimiter. -/
structure IsCut (s : Bytes) (frames : List Bytes) (rem : Option Bytes) : Prop where
  joins : s = frames.flatMap (· ++ [Config.delim]) ++ rem.getD []
  frames_undelimited : ∀ f ∈ frames, Config.delim ∉ f
  rem_spec : ∀ r, rem = some r → r ≠ [] ∧ Config.delim ∉ r

theorem IsCut.rest_undelimited {s : Bytes} {frames : List Bytes} {rem : Option Bytes} (h : IsCut s frames rem) :
    Config.delim ∉ rem.getD [] := by
  cases rem with
  | none => exact List.not_mem_nil
  | some r => exact (h.rem_spec r rfl).2

theorem isCut_split (s : Bytes) : IsCut s (split s).1 (split s).2 := by
  obtain ⟨hjoin, hframes, hrest⟩ := splitLoop_spec [] s List.not_mem_nil
  rw [split_eq]
  by_cases hr : (splitLoop [] s).2 = []
  · rw [if_pos hr]
    exact ⟨by rwa [hr] at hjoin, hframes, by simp⟩
  · rw [if_neg hr]
    exact ⟨hjoin, hframes, by rintro r ⟨⟩; exact ⟨hr, hrest⟩⟩

/-- R108: `split` gives the only cut of a buffer. -/
theorem IsCut.split_eq {s : Bytes} {frames : List Bytes} {rem : Option Bytes} (h : IsCut s frames rem) :
    split s = (frames, rem) := by
  have hloop : splitLoop [] s = (frames, rem.getD []) := by
    rw [h.joins, splitLoop_join h.frames_undelimited h.rest_undelimited]
  rw [Machine.split_eq, hloop]
  cases rem with
  | none => rfl
  | some r => simp [(h.rem_spec r rfl).1]

theorem split_eq_iff_isCut (s : Bytes) (frames : List Bytes) (rem : Option Bytes) :
    split s = (frames, rem) ↔ IsCut s frames rem := by
  constructor
  · intro h
    simpa only [h] using isCut_split s
  · exact IsCut.split_eq

/-- R110 (d): the cut of a buffer goes on with a chunk as the cut of its remainder and the chunk. -/
theorem IsCut.append {u chunk : Bytes} {frames frames' : List Bytes} {rem rem' : Option Bytes}
    (h : IsCut u frames rem) (h' : IsCut (rem.getD [] ++ chunk) frames' rem') :
    IsCut (u ++ chunk) (frames ++ frames') rem' where
  joins := by rw [h.joins, List.append_assoc, h'.joins, List.flatMap_append, List.append_assoc]
  frames_undelimited f hf := (List.mem_append.1 hf).elim (h.frames_undelimited f) (h'.frames_undelimited f)
  rem_spec := h'.rem_spec

theorem countP_delim_of_not_mem {f : Bytes} (h : Config.delim ∉ f) : f.countP (fun b => b = Config.delim) = 0 :=
  List.countP_eq_zero.2 fun b hb => by simpa using ne_of_mem_of_not_mem hb h

/-- R110 (c): every byte of a joined buffer stands in a frame or in the rest, or is a delimiter. -/
theorem length_join {frames : List Bytes} {rest : Bytes} (hf : ∀ f ∈ frames, Config.delim ∉ f)
    (hr : Config.delim ∉ rest) :
    (frames.map List.length).sum + rest.length +
      (frames.flatMap (· ++ [Config.delim]) ++ rest).countP (fun b => b = Config.delim) =
      (frames.flatMap (· ++ [Config.delim]) ++ rest).length := by
  induction frames with
  | nil => simp [countP_delim_of_not_mem hr]
  | cons f frames ih =>
    rw [List.forall_mem_cons] at hf
    have hrest := ih hf.2
    simp only [List.flatMap_cons, List.map_cons, List.sum_cons, List.append_assoc, List.countP_append,
      List.length_append, countP_delim_of_not_mem hf.1, List.countP_singleton, List.length_singleton, decide_true, if_true] at hrest ⊢
    omega

/-! ### Completing with a result -/

theorem exec_ok {i : Instr} {s : State} {r : Responses} {v : Bool} (hf : Fits s.cfg (commandSize i s))
    (hb : commandBody i s.clearResponses = .ok (r, v)) : exec i s = .next (s.succeed r v) := by
  rw [exec_eq_runCommand, runCommand_ok hf hb]

theorem exec_error {i : Instr} {s : State} {e : Code} (hf : Fits s.cfg (commandSize i s))
    (hb : commandBody i s.clearResponses = .error e) : exec i s = .next (s.fail e) := by
  rw [exec_eq_runCommand, runCommand_error hf hb]

/-- R28: the state left by a success without a remainder. -/
theorem State.succeed_false (s : State) (r : Responses) :
    s.succeed r false = { s with status := 0x20#32, resp := r } := by
  have hstatus : statusWord .ok false = 0x20#32 := by decide
  rw [State.succeed, hstatus]

/-- R28: the state left by a success with a remainder. -/
theorem State.succeed_true (s : State) (r : Responses) :
    s.succeed r true = { s with status := 0x30#32, resp := r } := by
  have hstatus : statusWord .ok true = 0x30#32 := by decide
  rw [State.succeed, hstatus]

/-- R28, R205: the state left by FramingError. -/
theorem State.fail_framingError (s : State) :
    s.fail .framingError = { s with status := 0x21#32, resp := Responses.cleared } := by
  have hstatus : statusWord .framingError false = 0x21#32 := by decide
  rw [State.fail, hstatus]

/-- R28, R205: the state left by CapacityExceeded. -/
theorem State.fail_capacityExceeded (s : State) :
    s.fail .capacityExceeded = { s with status := 0x28#32, resp := Responses.cleared } := by
  have hstatus : statusWord .capacityExceeded false = 0x28#32 := by decide
  rw [State.fail, hstatus]

/-- R59: a command whose input exceeds MAX_IN. -/
theorem exec_eq_capacityExceeded {i : Instr} {s : State} (h : Exceeds s.cfg (commandSize i s)) :
    exec i s = .next { s with status := 0x28#32, resp := Responses.cleared } := by
  rw [exec_exceeds h, State.fail_capacityExceeded]

/-! ### The obligations of 40_framer.md -/

/-- Settles O32: a body destuffs to a buffer exactly when it is that buffer's stuffing, and a stuffing holds no
delimiter to remove. -/
theorem stuffingIsABijection : Obligations.StuffingIsABijection := by
  refine fun c hc => ⟨fun s => ⟨?_, ?_⟩, fun g s hg h => ?_⟩
  · exact (congrArg (destuffBody c) (stripDelim_concat _)).trans (destuffBody_stuff hc s)
  · rw [destuff, stripDelim_of_not_mem (delim_not_mem_stuff hc s), destuffBody_stuff hc]
  · rw [destuff, stripDelim_of_not_mem hg] at h
    exact ((destuffBody_eq_ok_iff hc g s).1 h).symm

/-- Settles O28: the body of FRAME.ENC raises nothing, and each escaped byte adds one byte. -/
theorem frameEncFramesTheInput : Obligations.FrameEncFramesTheInput := by
  refine ⟨by decide, fun s hf => ?_, fun s he => exec_eq_capacityExceeded he,
    fun c hc => ⟨rfl, fun s hs => ?_, fun s hs => ?_, ?_⟩⟩
  · rw [exec_ok (i := .frameEnc) hf rfl, State.succeed_false]
    rfl
  · rw [← hc.esc_eq] at hs
    rw [List.length_append, stuff_length_of_escaped hs, List.length_singleton]
  · rw [← hc.esc_eq] at hs
    rw [stuff_eq_self fun b hb => not_or.2 (hs b hb)]
  · rw [hc.stuff_eq]
    decide

/-- Settles O29: the length counts the escaped bytes, and both escaped codes differ from DELIM and ESC. -/
theorem framesHoldOneDelimiterAtTheEnd : Obligations.FramesHoldOneDelimiterAtTheEnd := by
  intro c s hc
  have hlen : (stuff c s ++ [0x00#8]).length = s.length + s.countP (fun b => b = 0x00#8 ∨ b = c.esc) + 1 := by
    rw [List.length_append, stuff_length]
    rfl
  have hcount : s.countP (fun b => b = 0x00#8 ∨ b = c.esc) ≤ s.length := List.countP_le_length
  exact ⟨hlen, by omega, by omega, delim_not_mem_stuff hc s, stuff_esc_followed hc s⟩

/-- Settles O30: the scan of the body stops where a malformed rest follows a stuffed part. -/
theorem destuffFailsInThreeCases : Obligations.DestuffFailsInThreeCases := by
  intro c f body hc hbody
  have hstrip : stripDelim f = body := by
    obtain rfl | ⟨rfl, hne⟩ := hbody
    · exact stripDelim_concat body
    · exact stripDelim_of_ne_concat hne
  refine ⟨fun e => destuff_error, ?_⟩
  rw [destuff, hstrip]
  exact destuffBody_eq_error_iff hc body

/-- Settles O31: the body of FRAME.DEC answers what destuffing answers. -/
theorem frameDecRecoversTheBuffer : Obligations.FrameDecRecoversTheBuffer := by
  refine ⟨by decide, fun s buffer hf hd => ?_, fun s hf hd => ?_, fun s he => exec_eq_capacityExceeded he,
    fun c hc => ?_⟩
  · have hb : commandBody .frameDec s.clearResponses = .ok ({ Responses.cleared with out := buffer }, false) := by
      simp [commandBody, frameDecBody, hd]
    rw [exec_ok hf hb, State.succeed_false]
  · have hb : commandBody .frameDec s.clearResponses = .error .framingError := by
      simp [commandBody, frameDecBody, hd]
    rw [exec_error hf hb, State.fail_framingError]
  · simp only [hc.destuff_eq]
    decide

/-- Settles O33: a cut into delimited frames and a remainder is the cut that `split` gives. -/
theorem splitCutsAtEveryDelimiter : Obligations.SplitCutsAtEveryDelimiter := by
  intro s frames rem
  rw [split_eq_iff_isCut]
  exact ⟨fun ⟨hjoin, hframes, hrem⟩ => ⟨hjoin, hframes, hrem⟩, fun ⟨hjoin, hframes, hrem⟩ => ⟨hjoin, hframes, hrem⟩⟩

/-- Settles O34: the body of FRAME.SPLIT answers the frames of `split`, and REM_VALID with the remainder. -/
theorem frameSplitSplitsTheInput : Obligations.FrameSplitSplitsTheInput := by
  refine ⟨by decide, fun s frames hf hs => ?_, fun s frames r hf hs => ?_, fun s he => exec_eq_capacityExceeded he,
    by decide⟩
  · have hb : commandBody .frameSplit s.clearResponses = .ok ({ Responses.cleared with frames := frames }, false) := by
      simp [commandBody, frameSplitBody, hs]
    rw [exec_ok hf hb, State.succeed_false]
  · have hb : commandBody .frameSplit s.clearResponses =
        .ok ({ Responses.cleared with frames := frames, remOut := r }, true) := by
      simp [commandBody, frameSplitBody, hs]
    rw [exec_ok hf hb, State.succeed_true]

/-- Settles O35: each split is the cut named, and the cut of a stream goes on from the remainder of its first part. -/
theorem splitOfFramesAndChunks : Obligations.SplitOfFramesAndChunks := by
  refine ⟨fun c a b hc => IsCut.split_eq ⟨?_, ?_, by simp⟩, fun c a p hc hne hp => IsCut.split_eq ⟨?_, ?_, ?_⟩,
    fun s => ?_, fun u chunk => ((isCut_split u).append (isCut_split _)).split_eq⟩
  · simp [Config.delim]
  · simpa using ⟨delim_not_mem_stuff hc a, delim_not_mem_stuff hc b⟩
  · simp [Config.delim]
  · simpa using delim_not_mem_stuff hc a
  · rintro r ⟨⟩
    exact ⟨hne, hp⟩
  · have hcut := isCut_split s
    have hlen := length_join hcut.frames_undelimited hcut.rest_undelimited
    rwa [← hcut.joins] at hlen

/-- Settles O27: stuffing works byte by byte, with the ESC and MASK of R9. -/
theorem stuffingEscapesExactlyTwoBytes : Obligations.StuffingEscapesExactlyTwoBytes := by
  refine fun c hc => ⟨fun s => ?_, ?_, ?_, fun b hdelim hesc => ?_⟩
  · rw [stuff_eq_flatMap, hc.esc_eq, hc.mask_eq]
    rfl
  · rw [hc.stuff_eq]
    decide
  · rw [hc.stuff_eq]
    decide
  · rw [← hc.esc_eq] at hesc
    exact stuff_cons_plain c (not_or.2 ⟨hdelim, hesc⟩) []

end Sys2Proof.Machine
end

section
/-! PROOF. The Trailer/Checksum unit (41_trailer_checksum.md): the CRC bit by bit and what it detects, parsing as the
inverse of building, the checks of a tampered buffer, and the three commands. -/

namespace Sys2Proof.Machine

/-! ### No capacity makes a difference to a message -/

@[simp] theorem crc8_withMaxIn (c : Config) (m : Option Nat) (s : Bytes) : crc8 { c with maxIn := m } s = crc8 c s :=
  rfl

@[simp] theorem messageBuffer_withMaxIn (c : Config) (m : Option Nat) (dev pkt : Byte) (payload : Bytes) :
    messageBuffer { c with maxIn := m } dev pkt payload = messageBuffer c dev pkt payload :=
  rfl

end Sys2Proof.Machine

namespace Sys2Proof

/-! ### This hardware's parameters -/

namespace Config.IsHardware

variable {c : Config}

theorem crc8_eq (hc : c.IsHardware) (s : Bytes) : Machine.crc8 c s = Machine.crc8 reference s :=
  (congrArg (Machine.crc8 · s) hc).trans (Machine.crc8_withMaxIn reference c.maxIn s)

theorem messageBuffer_eq (hc : c.IsHardware) (dev pkt : Byte) (payload : Bytes) :
    Machine.messageBuffer c dev pkt payload = Machine.messageBuffer reference dev pkt payload :=
  (congrArg (Machine.messageBuffer · dev pkt payload) hc).trans
    (Machine.messageBuffer_withMaxIn reference c.maxIn dev pkt payload)

/-- Parsing on this hardware is parsing with the values of R9. -/
theorem parse_eq (hc : c.IsHardware) (f : Bytes) : Machine.parse c f = Machine.parse reference f :=
  (congrArg (Machine.parse · f) hc).trans (Machine.parse_withMaxIn reference c.maxIn f)

end Config.IsHardware

end Sys2Proof

namespace Sys2Proof.Machine

/-! ### The CRC bit by bit -/

theorem crcShifts_eq_iterate (reflect : Bool) (n : Nat) (r : Byte) :
    crcShifts reflect n r = (crcShift reflect)^[n] r := by
  induction n generalizing r with
  | zero => rfl
  | succ n ih => exact ih _

/-- R131: the right shift, with `rev8(0x4D) = 0xB2`. -/
theorem crcShift_reflected :
    crcShift true = fun r : Byte => if r &&& 0x01#8 = 0x01#8 then (r >>> 1) ^^^ 0xB2#8 else r >>> 1 := by
  funext r
  revert r
  decide

/-- R132: the left shift. -/
theorem crcShift_unreflected :
    crcShift false = fun r : Byte => if r &&& 0x80#8 = 0x80#8 then (r <<< 1) ^^^ 0x4D#8 else r <<< 1 := by
  funext r
  revert r
  decide

/-- 0xFF reflects to itself, so both forms start the register there. -/
theorem crc8_eq_register {c : Config} (hinit : c.crcInit = 0xFF#8) (s : Bytes) :
    crc8 c s = crcRegister c.crcReflect 0xFF#8 s ^^^ 0xFF#8 := by
  have hstart : crcStart c = 0xFF#8 := by
    rw [crcStart, hinit]
    cases c.crcReflect <;> decide
  rw [crc8, hstart, Config.crcXorOut]

theorem crc8_nil {c : Config} (hinit : c.crcInit = 0xFF#8) : crc8 c [] = 0x00#8 := by
  rw [crc8_eq_register hinit, crcRegister, BitVec.xor_self]

/-- The register after one more byte is eight shifts from the register before, which the checksum still shows. -/
theorem crc8_concat (c : Config) (s : Bytes) (b : Byte) :
    crc8 c (s ++ [b]) = (crcShift c.crcReflect)^[8] ((crc8 c s ^^^ 0xFF#8) ^^^ b) ^^^ 0xFF#8 := by
  have hregister : crc8 c s ^^^ 0xFF#8 = crcRegister c.crcReflect (crcStart c) s := by
    rw [crc8, Config.crcXorOut, BitVec.xor_assoc, BitVec.xor_self, BitVec.xor_zero]
  rw [hregister, crc8, crcRegister_append, ← crcShifts_eq_iterate]
  rfl

/-! ### The reflected and the unreflected CRC -/

theorem rev8_eq_reverse (v : Byte) : rev8 v = v.reverse := by
  revert v
  decide

theorem reverse_xor (a b : Byte) : (a ^^^ b).reverse = a.reverse ^^^ b.reverse := by
  ext i hi
  simp [BitVec.getElem_reverse]

theorem crcShift_reverse (r : Byte) : crcShift true r.reverse = (crcShift false r).reverse := by
  revert r
  decide

theorem crcShifts_reverse (n : Nat) (r : Byte) : crcShifts true n r.reverse = (crcShifts false n r).reverse := by
  induction n generalizing r with
  | zero => rfl
  | succ n ih => rw [crcShifts, crcShift_reverse, ih, crcShifts]

theorem crcByte_reverse (r b : Byte) : crcByte true r.reverse b = (crcByte false r b.reverse).reverse := by
  rw [crcByte, crcByte, ← crcShifts_reverse, reverse_xor, BitVec.reverse_reverse_eq]

/-- R131: the reflected register is the reflection of the unreflected one over the reflected bytes. -/
theorem crcRegister_reverse (r : Byte) (s : Bytes) :
    crcRegister true r.reverse s = (crcRegister false r (s.map BitVec.reverse)).reverse := by
  induction s generalizing r with
  | nil => rfl
  | cons b s ih => rw [crcRegister, crcByte_reverse, ih, List.map_cons, crcRegister]

/-! ### What the CRC detects -/

/-- R133 (b): the checksums of two sequences of one length differ by the register of their XOR. -/
theorem crc8_xor_crc8 (c : Config) {s t : Bytes} (h : s.length = t.length) :
    crc8 c s ^^^ crc8 c t = crcRegister c.crcReflect 0x00#8 (List.zipWith (· ^^^ ·) s t) := by
  have hregister := crcRegister_xor c.crcReflect s t (crcStart c) (crcStart c) h
  rw [BitVec.xor_self] at hregister
  rw [hregister, crc8, crc8, BitVec.xor_assoc, BitVec.xor_comm Config.crcXorOut, BitVec.xor_assoc, BitVec.xor_self,
    BitVec.xor_zero]

/-- A sequence with one byte changed has another checksum. -/
theorem crc8_set_ne (c : Config) {s : Bytes} {k : Nat} {b b' : Byte} (hk : s[k]? = some b) (hb : b' ≠ b) :
    crc8 c (s.set k b') ≠ crc8 c s := by
  obtain ⟨hlt, rfl⟩ := List.getElem?_eq_some_iff.1 hk
  have hself : s = s.take k ++ s[k] :: s.drop (k + 1) := by
    rw [← List.set_eq_take_cons_drop _ hlt, List.set_getElem_self]
  conv_rhs => rw [hself]
  rw [List.set_eq_take_cons_drop _ hlt]
  exact crc8_ne_of_byte_ne c _ _ hb

/-- R133 (c): the check fails on a checksummed sequence with one byte changed, be it in the sequence or its checksum. -/
theorem crc8_ne_of_set (c : Config) {s s' : Bytes} {x b b' : Byte} {k : Nat}
    (hk : (s ++ [crc8 c s])[k]? = some b) (hb : b' ≠ b) (hset : s' ++ [x] = (s ++ [crc8 c s]).set k b') :
    crc8 c s' ≠ x := by
  by_cases hlt : k < s.length
  · rw [List.set_append_left _ _ hlt] at hset
    obtain ⟨rfl, hx⟩ := List.append_inj' hset rfl
    rw [List.getElem?_append_left hlt] at hk
    rw [List.singleton_inj.1 hx]
    exact crc8_set_ne c hk hb
  · obtain rfl : k = s.length := by
      have := (List.getElem?_eq_some_iff.1 hk).1
      simp only [List.length_append, List.length_singleton] at this
      omega
    rw [List.getElem?_concat_length] at hk
    rw [List.set_append_right _ _ le_rfl, Nat.sub_self] at hset
    obtain ⟨rfl, hx⟩ := List.append_inj' hset rfl
    rw [List.singleton_inj.1 hx, Option.some.inj hk]
    exact hb.symm

theorem flipBit_ne {bit : Nat} (hbit : bit < 8) (b : Byte) : b ^^^ (1#8 <<< bit) ≠ b := by
  have hmask : ∀ i < 8, 1#8 <<< i ≠ 0x00#8 := by decide
  simpa using hmask bit hbit

set_option maxRecDepth 20000 in
/-- R133 (d): the generator divides x^255 + 1, so the first and the last bit of 32 bytes change the register alike. -/
theorem crcRegister_misses_two_bits (reflect : Bool) :
    ∃ j' k' : Nat, j' < 8 ∧ k' < 8 ∧
      crcRegister reflect 0x00#8 ((1#8 <<< j') :: (List.replicate 30 0x00#8 ++ [1#8 <<< k'])) = 0x00#8 := by
  cases reflect
  · exact ⟨7, 0, by decide⟩
  · exact ⟨0, 7, by decide⟩

/-! ### Parsing -/

theorem parse_eq_checkDecoded {c : Config} {f d : Bytes} (h : destuff c f = .ok d) : parse c f = checkDecoded c d := by
  rw [parse, h]

theorem parse_eq_error {c : Config} {f : Bytes} {e : Code} (h : destuff c f = .error e) : parse c f = .error e := by
  rw [parse, h]

/-- R107, R144: parsing a frame checks the buffer that was framed. -/
theorem parse_frameOf {c : Config} (hc : c.Legal) (d : Bytes) : parse c (frameOf c d) = checkDecoded c d :=
  parse_eq_checkDecoded ((stuffingIsABijection c hc).1 d).1

/-- R107, R144: so does parsing a frame without its delimiter. -/
theorem parse_stuff {c : Config} (hc : c.Legal) (d : Bytes) : parse c (stuff c d) = checkDecoded c d :=
  parse_eq_checkDecoded ((stuffingIsABijection c hc).1 d).2

/-- The length byte holds every length that a built message can have. -/
theorem toNat_lengthByte {payload : Bytes} (h : payload.length ≤ 251) :
    (BitVec.ofNat 8 (payload.length + 4)).toNat = payload.length + 4 := by
  rw [BitVec.toNat_ofNat]
  omega

/-- R147: a built message's buffer passes every check. -/
theorem checkDecoded_messageBuffer (c : Config) (dev pkt : Byte) {payload : Bytes} (h : payload.length ≤ 251) :
    checkDecoded c (messageBuffer c dev pkt payload) = .ok { dev := dev, pkt := pkt, payload := payload } := by
  rw [messageBuffer_eq, checkDecoded_trailer, if_neg (not_not.2 (toNat_lengthByte h)), if_neg (not_not.2 rfl)]

/-- R146: no length byte holds a length above 255. -/
theorem checkDecoded_tooLong (c : Config) {d : Bytes} (h : 255 < d.length) :
    checkDecoded c d = .error .lengthMismatch := by
  obtain ⟨payload, pkt, dev, len, check, rfl⟩ := exists_trailer (by omega : 3 < d.length)
  have hne : len.toNat ≠ payload.length + 4 := by
    have hlen := len.isLt
    simp only [List.length_append, List.length_cons, List.length_nil] at h
    omega
  rw [checkDecoded_trailer, if_pos hne]

theorem messageBuffer_length (c : Config) (dev pkt : Byte) (payload : Bytes) :
    (messageBuffer c dev pkt payload).length = payload.length + 4 := by
  simp [messageBuffer_eq]

/-- R149: a changed length byte fails the length check. -/
theorem checkDecoded_set_length (c : Config) (dev pkt : Byte) {len : Byte} {payload : Bytes} (h : payload.length ≤ 251)
    (hlen : len ≠ BitVec.ofNat 8 (payload.length + 4)) :
    checkDecoded c ((messageBuffer c dev pkt payload).set (payload.length + 2) len) = .error .lengthMismatch := by
  have hne : len.toNat ≠ payload.length + 4 := fun heq =>
    hlen (BitVec.eq_of_toNat_eq (heq.trans (toNat_lengthByte h).symm))
  rw [messageBuffer_eq, List.set_append_right _ _ (Nat.le_add_right _ 2), Nat.add_sub_cancel_left]
  exact (checkDecoded_trailer c payload pkt dev len _).trans (if_pos hne)

/-- R148: a change of any other byte passes the length check and fails the checksum. -/
theorem checkDecoded_set_other (c : Config) {dev pkt b b' : Byte} {payload : Bytes} {k : Nat}
    (h : payload.length ≤ 251) (hk : (messageBuffer c dev pkt payload)[k]? = some b) (hb : b' ≠ b)
    (hne : k ≠ payload.length + 2) :
    checkDecoded c ((messageBuffer c dev pkt payload).set k b') = .error .checksumMismatch := by
  obtain ⟨payload', pkt', dev', len', check', hset⟩ :=
    exists_trailer (d := (messageBuffer c dev pkt payload).set k b') (by simp [messageBuffer_length])
  have hsize : payload'.length = payload.length := by
    simpa [messageBuffer_length] using (congrArg List.length hset).symm
  have hlen : len' = BitVec.ofNat 8 (payload.length + 4) := by
    have hbyte : ((messageBuffer c dev pkt payload).set k b')[payload.length + 2]? = some len' := by
      simp [hset, ← hsize]
    rw [List.getElem?_set_ne hne] at hbyte
    simpa [messageBuffer_eq] using hbyte.symm
  have hcrc : crc8 c (payload' ++ [pkt', dev', len']) ≠ check' :=
    crc8_ne_of_set c hk hb (by rw [← messageBuffer, hset]; simp)
  rw [hset, checkDecoded_trailer, hlen, hsize, if_neg (not_not.2 (toNat_lengthByte h)), if_pos (hlen ▸ hcrc)]

/-! ### The commands -/

/-- R28, R205: the whole state left by a command whose own checks raise a code. -/
theorem exec_eq_error {i : Instr} {s : State} {e : Code} {status : Word} (hf : Fits s.cfg (commandSize i s))
    (hb : commandBody i s.clearResponses = .error e) (hstatus : statusWord e false = status) :
    exec i s = .next { s with status := status, resp := Responses.cleared } := by
  rw [exec_error hf hb, State.fail, hstatus]

theorem exec_crc8 {s : State} (hf : Fits s.cfg s.req.inp.length) :
    exec .crc8 s = .next
      { s with status := 0x20#32, resp := { Responses.cleared with resCrc := crc8 s.cfg s.req.inp } } := by
  rw [exec_ok (i := .crc8) hf rfl, State.succeed_false]
  rfl

/-- R142: a payload of at most 251 bytes is framed. -/
theorem exec_msgBuild (dev pkt : Byte) {s : State} (hf : Fits s.cfg s.req.inp.length) (hl : s.req.inp.length ≤ 251) :
    exec (.msgBuild dev pkt) s = .next
      { s with
        status := 0x20#32
        resp := { Responses.cleared with out := frameOf s.cfg (messageBuffer s.cfg dev pkt s.req.inp) } } := by
  have hb : commandBody (.msgBuild dev pkt) s.clearResponses =
      .ok ({ Responses.cleared with out := frameOf s.cfg (messageBuffer s.cfg dev pkt s.req.inp) }, false) :=
    if_neg (Nat.not_lt.2 (Nat.add_le_add_right hl 4))
  rw [exec_ok hf hb, State.succeed_false]

/-- R142: a larger payload is not framed. -/
theorem exec_msgBuild_tooLarge (dev pkt : Byte) {s : State} (hf : Fits s.cfg s.req.inp.length)
    (hl : 251 < s.req.inp.length) :
    exec (.msgBuild dev pkt) s = .next { s with status := 0x25#32, resp := Responses.cleared } :=
  exec_eq_error hf (if_pos (Nat.add_lt_add_right hl 4)) (by decide)

theorem exec_msgParse_ok {s : State} {m : Message} (hf : Fits s.cfg s.req.inp.length)
    (hp : parse s.cfg s.req.inp = .ok m) :
    exec .msgParse s = .next
      { s with
        status := 0x20#32
        resp := { Responses.cleared with resDev := m.dev, resPkt := m.pkt, out := m.payload } } := by
  have hb : commandBody .msgParse s.clearResponses =
      .ok ({ Responses.cleared with resDev := m.dev, resPkt := m.pkt, out := m.payload }, false) := by
    simp [commandBody, msgParseBody, hp]
  rw [exec_ok hf hb, State.succeed_false]

theorem exec_msgParse_error {s : State} {e : Code} {status : Word} (hf : Fits s.cfg s.req.inp.length)
    (hp : parse s.cfg s.req.inp = .error e) (hstatus : statusWord e false = status) :
    exec .msgParse s = .next { s with status := status, resp := Responses.cleared } :=
  exec_eq_error hf (by simp [commandBody, msgParseBody, hp]) hstatus

/-- R28: the STATUS of LengthMismatch. -/
theorem statusWord_lengthMismatch : statusWord .lengthMismatch false = 0x23#32 := by decide

/-- R28: the STATUS of ChecksumMismatch. -/
theorem statusWord_checksumMismatch : statusWord .checksumMismatch false = 0x24#32 := by decide

/-! ### The obligations of 41_trailer_checksum.md -/

/-- Settles O42: the frame destuffs, with and without its delimiter, to the buffer, which passes every check. -/
theorem parseInvertsBuild : Obligations.ParseInvertsBuild := by
  refine fun dev pkt s hc hf hl => ⟨_, exec_msgBuild dev pkt hf hl, fun frame hframe hfit => ?_⟩
  have hp : parse s.cfg frame = checkDecoded s.cfg (messageBuffer s.cfg dev pkt s.req.inp) := by
    obtain rfl | hout := hframe
    · exact parse_frameOf hc _
    · rw [← (List.append_inj' hout rfl).1]
      exact parse_stuff hc _
  exact exec_msgParse_ok (s := State.loadIn frame _) hfit (hp.trans (checkDecoded_messageBuffer s.cfg dev pkt hl))

/-- Settles O36: one more byte is eight shifts, and each shift of the one form is the reflection of the other's. -/
theorem crcIsBitSerial : Obligations.CrcIsBitSerial := by
  refine ⟨fun c hreflect hinit => ⟨crc8_nil hinit, fun s b => ?_⟩,
    fun c hreflect hinit => ⟨crc8_nil hinit, fun s b => ?_⟩, fun c s hreflect => ?_⟩
  · rw [crc8_concat, hreflect, crcShift_reflected]
  · rw [crc8_concat, hreflect, crcShift_unreflected]
  · have hxorOut : Config.crcXorOut.reverse = Config.crcXorOut := by decide
    simp only [crc8, crcStart, hreflect, if_true, Bool.false_eq_true, if_false, rev8_eq_reverse, crcRegister_reverse,
      reverse_xor, hxorOut]

/-- Settles O37: by the CRC's linearity, its injectivity in one byte, and two bits that lie one period apart. -/
theorem crcMissesNoSingleBitError : Obligations.CrcMissesNoSingleBitError := by
  refine fun c hinit => ⟨crc8_nil hinit, fun s t s' t' hst hst' hxor => ?_,
    fun s s' x k bit b hbit hk hset => crc8_ne_of_set c hk (flipBit_ne hbit b) hset, ?_⟩
  · rw [crc8_xor_crc8 c hst, crc8_xor_crc8 c hst', hxor]
  · obtain ⟨j', k', hj', hk', hzero⟩ := crcRegister_misses_two_bits c.crcReflect
    refine ⟨List.replicate 32 0x00#8, 0, 31, j', k', 0x00#8, 0x00#8, by decide, hj', hk', rfl, rfl, ?_⟩
    rw [← BitVec.xor_eq_zero_iff, crc8_xor_crc8 c (by simp)]
    simpa [List.replicate] using hzero

set_option maxRecDepth 3000 in
/-- Settles O38: the body of CRC8 raises nothing. -/
theorem crc8ChecksumsTheInput : Obligations.Crc8ChecksumsTheInput := by
  refine ⟨by decide, fun s hf => exec_crc8 hf, fun s he => exec_eq_capacityExceeded he, fun c hc => ?_⟩
  simp only [hc.crc8_eq]
  decide

set_option maxRecDepth 3000 in
/-- Settles O39: the body of MSG.BUILD compares the payload's length with 251 and frames the buffer. -/
theorem msgBuildFramesTheMessage : Obligations.MsgBuildFramesTheMessage := by
  refine ⟨encode_msgBuild, fun dev pkt s hf hl => exec_msgBuild dev pkt hf hl,
    fun dev pkt s hf hl => exec_msgBuild_tooLarge dev pkt hf hl,
    fun dev pkt s he => exec_eq_capacityExceeded he, fun s hc hf hin => ?_⟩
  have hframe : frameOf s.cfg (messageBuffer s.cfg 0x01#8 0x02#8 s.req.inp) =
      [0x02#8, 0x01#8, 0x04#8, 0x6D#8, 0x00#8] := by
    rw [frameOf, hc.stuff_eq, hc.messageBuffer_eq, hin]
    decide
  rw [exec_msgBuild _ _ (by rwa [hin]) (by simp [hin]), hframe]

/-- Settles O40: a buffer of at most 255 bytes at most doubles and gains one delimiter. -/
theorem builtFramesAreBounded : Obligations.BuiltFramesAreBounded := by
  intro dev pkt s t h
  obtain ⟨-, rfl⟩ | ⟨-, e, hb, rfl⟩ | ⟨-, r, v, hb, rfl⟩ := exec_cases h
  · exact ⟨Nat.zero_le _, fun _ => ⟨rfl, by simp [Code.num]⟩⟩
  · obtain ⟨hi, -⟩ | ⟨-, rfl⟩ | ⟨hi, -⟩ | ⟨hi, -⟩ := commandBody_error hb
    · cases hi
    · exact ⟨Nat.zero_le _, fun _ => ⟨rfl, by simp [Code.num]⟩⟩
    · cases hi
    · cases hi
  · obtain ⟨hl, rfl, -⟩ := commandBody_ok hb
    have hframe := frameOf_length_le s.cfg (messageBuffer s.cfg dev pkt s.req.inp)
    rw [State.clearResponses_req] at hl
    rw [messageBuffer_length] at hframe
    exact ⟨hframe.trans (by omega), fun hlarge => absurd hl (Nat.not_le.2 hlarge)⟩

set_option maxRecDepth 3000 in
/-- Settles O41: MSG.PARSE completes with what parsing answers, and parsing checks a decoded buffer in R144's order. -/
theorem msgParseChecksInOrder : Obligations.MsgParseChecksInOrder := by
  refine ⟨by decide, fun s he => exec_eq_capacityExceeded he,
    fun s hf => ⟨fun hd => exec_msgParse_error hf (parse_eq_error hd) (by decide), fun d hd hl => ?_,
      fun payload pkt dev len check hd => ?_⟩,
    fun s d hf hd hl => ?_, fun s hc hf hin => ?_⟩
  · exact exec_msgParse_error hf ((parse_eq_checkDecoded hd).trans (checkDecoded_short s.cfg hl)) (by decide)
  · have hp := (parse_eq_checkDecoded hd).trans (checkDecoded_trailer s.cfg payload pkt dev len check)
    refine ⟨fun hlen => ?_, fun hlen hcrc => ?_, fun hlen hcrc => ?_⟩
    · rw [if_pos hlen] at hp
      exact exec_msgParse_error hf hp statusWord_lengthMismatch
    · rw [if_neg (not_not.2 hlen), if_pos hcrc] at hp
      exact exec_msgParse_error hf hp statusWord_checksumMismatch
    · rw [if_neg (not_not.2 hlen), if_neg (not_not.2 hcrc)] at hp
      exact exec_msgParse_ok hf hp
  · exact exec_msgParse_error hf ((parse_eq_checkDecoded hd).trans (checkDecoded_tooLong s.cfg hl))
      statusWord_lengthMismatch
  · have hp : parse s.cfg s.req.inp = .ok { dev := 0x01#8, pkt := 0x02#8, payload := [] } := by
      rw [hc.parse_eq, hin]
      decide
    exact exec_msgParse_ok (by rwa [hin]) hp

set_option maxRecDepth 3000 in
/-- Settles O43: another length byte fails the length check, any other byte the checksum. -/
theorem singleBitErrorsAreCaught : Obligations.SingleBitErrorsAreCaught := by
  refine ⟨fun dev pkt payload s k bit b hc hl hbit hk hin hf => ?_, fun s hc hf => ⟨?_, fun hin => ?_, fun hin => ?_⟩⟩
  · have hp := (congrArg (parse s.cfg) hin).trans (parse_frameOf hc _)
    have hb := flipBit_ne hbit b
    refine ⟨fun hlen => ?_, fun hne => ?_⟩
    · subst hlen
      have hlenByte : b = BitVec.ofNat 8 (payload.length + 4) := by simpa [messageBuffer_eq] using hk.symm
      exact exec_msgParse_error hf (hp.trans (checkDecoded_set_length s.cfg dev pkt hl (hlenByte ▸ hb)))
        statusWord_lengthMismatch
    · exact exec_msgParse_error hf (hp.trans (checkDecoded_set_other s.cfg hl hk hb hne)) statusWord_checksumMismatch
  · rw [hc.stuff_eq, hc.messageBuffer_eq]
    decide
  · have hp : parse s.cfg s.req.inp = .error .lengthMismatch := by
      rw [hc.parse_eq, hin]
      decide
    exact exec_msgParse_error (by rwa [hin]) hp statusWord_lengthMismatch
  · have hp : parse s.cfg s.req.inp = .error .framingError := by
      rw [hc.parse_eq, hin]
      decide
    exact exec_msgParse_error (by rwa [hin]) hp (by decide)

/-- Settles O44: the length check comes before the checksum. -/
theorem lengthTamperIsCaught : Obligations.LengthTamperIsCaught := by
  intro dev pkt len payload s hc hl hlen hin hf
  have hp := (congrArg (parse s.cfg) hin).trans (parse_frameOf hc _)
  exact exec_msgParse_error hf (hp.trans (checkDecoded_set_length s.cfg dev pkt hl hlen)) statusWord_lengthMismatch

end Sys2Proof.Machine
end

section
/-! PROOF. The Float Array Codec (42_float.md): the length and the bytes of a serialized sequence and of a deserialized
one, and the two commands. -/

namespace Sys2Proof.Machine

/-! ### Serializing and deserializing -/

/-- R173: serializing works word by word. -/
theorem serializeWords_eq_flatMap (order : FloatOrder) (ws : List Word) :
    serializeWords order ws = ws.flatMap (bytesOf order) := by
  induction ws with
  | nil => rfl
  | cons w ws ih => rw [serializeWords, ih, List.flatMap_cons]

/-- R175: each four bytes make a word. -/
theorem deserializeWords_length (order : FloatOrder) {s : Bytes} (h : s.length % 4 = 0) :
    4 * (deserializeWords order s).length = s.length := by
  rw [← serializeWords_length order, serializeWords_deserializeWords order s h]

/-- R59: the output of FLT.ENC fits where its input did. -/
theorem Fits.serializeWords {c : Config} {ws : List Word} (h : Fits c (4 * ws.length)) (order : FloatOrder) :
    Fits c (serializeWords order ws).length := by
  rwa [serializeWords_length]

/-- R59: the output of FLT.DEC fits where its input did. -/
theorem Fits.deserializeWords {c : Config} {s : Bytes} (h : Fits c s.length) (hl : s.length % 4 = 0)
    (order : FloatOrder) : Fits c (4 * (deserializeWords order s).length) := by
  rwa [deserializeWords_length order hl]

/-! ### The commands -/

/-- R173: FLT.ENC raises nothing. -/
theorem exec_fltEnc {s : State} (hf : Fits s.cfg (4 * s.req.inW.length)) :
    exec .fltEnc s = .next
      { s with
        status := 0x20#32
        resp := { Responses.cleared with out := serializeWords s.cfg.floatOrder s.req.inW } } := by
  rw [exec_ok (i := .fltEnc) hf rfl, State.succeed_false]
  rfl

/-- R175: FLT.DEC of whole groups of four bytes. -/
theorem exec_fltDec {s : State} (hf : Fits s.cfg s.req.inp.length) (hl : s.req.inp.length % 4 = 0) :
    exec .fltDec s = .next
      { s with
        status := 0x20#32
        resp := { Responses.cleared with outW := deserializeWords s.cfg.floatOrder s.req.inp } } := by
  have hb : commandBody .fltDec s.clearResponses =
      .ok ({ Responses.cleared with outW := deserializeWords s.cfg.floatOrder s.req.inp }, false) :=
    if_neg (not_not.2 hl)
  rw [exec_ok hf hb, State.succeed_false]

/-- R175: FLT.DEC of any other number of bytes. -/
theorem exec_fltDec_invalidLength {s : State} (hf : Fits s.cfg s.req.inp.length) (hl : s.req.inp.length % 4 ≠ 0) :
    exec .fltDec s = .next { s with status := 0x26#32, resp := Responses.cleared } :=
  exec_eq_error hf (if_pos hl) (by decide)

/-! ### The obligations of 42_float.md -/

/-- Settles O46: the body of FLT.ENC raises nothing, and a word's bytes in little-endian order are R173's. -/
theorem fltEncSerializesTheWords : Obligations.FltEncSerializesTheWords := by
  refine ⟨by decide, fun s horder hf => ⟨serializeWords s.cfg.floatOrder s.req.inW, ?_, serializeWords_length _ _,
    exec_fltEnc hf⟩, fun s he => exec_eq_capacityExceeded he, fun s horder hf hin => ?_⟩
  · rw [serializeWords_eq_flatMap, horder]
    rfl
  · have hbytes : serializeWords s.cfg.floatOrder s.req.inW = [0x00#8, 0x00#8, 0xA0#8, 0x41#8] := by
      rw [horder, hin]
      decide
    rw [exec_fltEnc (by rwa [hin]), hbytes]

/-- Settles O47: n words make a payload of 4 * n bytes, and 4 * 62 ≤ 251 < 4 * 63. -/
theorem sixtyTwoFloatsFitAMessage : Obligations.SixtyTwoFloatsFitAMessage := by
  intro dev pkt s hf
  have hsize := serializeWords_length s.cfg.floatOrder s.req.inW
  have hfit := hf.serializeWords s.cfg.floatOrder
  have hok : codeOf 0x20#32 = 0#4 := by decide
  have hlarge : codeOf 0x25#32 = 5#4 := by decide
  by_cases hn : s.req.inW.length ≤ 62
  · have hl : (serializeWords s.cfg.floatOrder s.req.inW).length ≤ 251 := by omega
    exact ⟨_, _, exec_fltEnc hf, exec_msgBuild dev pkt hfit hl, fun _ => hok,
      fun hlt => absurd hn (Nat.not_le.2 hlt)⟩
  · have hl : 251 < (serializeWords s.cfg.floatOrder s.req.inW).length := by omega
    exact ⟨_, _, exec_fltEnc hf, exec_msgBuild_tooLarge dev pkt hfit hl, fun hle => absurd hle hn, fun _ => hlarge⟩

/-- Settles O48: the words FLT.DEC writes serialize back to the bytes it read. -/
theorem fltDecDeserializesTheBytes : Obligations.FltDecDeserializesTheBytes := by
  refine ⟨by decide, fun s horder hf hl => ⟨deserializeWords s.cfg.floatOrder s.req.inp,
      Nat.eq_div_of_mul_eq_right (by decide) (deserializeWords_length _ hl), ?_, exec_fltDec hf hl⟩,
    fun s hf hl => exec_fltDec_invalidLength hf hl, fun s he => exec_eq_capacityExceeded he,
    fun s horder hf hin => ?_⟩
  · have hback := serializeWords_deserializeWords .littleEndian s.req.inp hl
    rw [serializeWords_eq_flatMap] at hback
    rw [horder]
    exact hback.symm
  · have hwords : deserializeWords s.cfg.floatOrder s.req.inp = [0xC1A00000#32] := by
      rw [horder, hin]
      decide
    rw [exec_fltDec (by rwa [hin]) (by rw [hin]; rfl), hwords]

/-- Settles O49: serializing and deserializing invert each other, and each output fits where its input did. -/
theorem floatCodecRoundTrips : Obligations.FloatCodecRoundTrips := by
  refine ⟨fun s hf => ⟨_, exec_fltEnc hf, ?_⟩, fun s hf hl => ⟨_, exec_fltDec hf hl, ?_⟩⟩
  · rw [exec_fltDec]
    · simp only [State.loadIn, deserializeWords_serializeWords]
    · exact hf.serializeWords s.cfg.floatOrder
    · exact serializeWords_length s.cfg.floatOrder s.req.inW ▸ Nat.mul_mod_right 4 _
  · rw [exec_fltEnc]
    · simp only [State.loadInW, serializeWords_deserializeWords _ _ hl]
    · exact hf.deserializeWords hl s.cfg.floatOrder

end Sys2Proof.Machine
end

section
/-! PROOF. The receive composition (43_stream.md): STREAM.FEED as one FRAME.SPLIT and a parse of each candidate frame,
and the cut of a stream that does not depend on its chunks. -/

namespace Sys2Proof.Machine

/-! ### Splitting -/

/-- R110 (c): neither a candidate frame nor the remainder is longer than what was split. -/
theorem split_lengths_le (s : Bytes) :
    (∀ f ∈ (split s).1, f.length ≤ s.length) ∧ ((split s).2.getD []).length ≤ s.length := by
  have hcount := splitOfFramesAndChunks.2.2.1 s
  refine ⟨fun f hf => ?_, by omega⟩
  have hsum : f.length ≤ ((split s).1.map List.length).sum := List.le_sum_of_mem (List.mem_map_of_mem hf)
  omega

/-- R108: what holds no delimiter has no candidate frame, and is its own remainder. -/
theorem isCut_undelimited {s : Bytes} (hne : s ≠ []) (hd : Config.delim ∉ s) : IsCut s [] (some s) where
  joins := rfl
  frames_undelimited := by simp
  rem_spec := by rintro r ⟨⟩; exact ⟨hne, hd⟩

theorem split_undelimited_eq {s : Bytes} (hd : Config.delim ∉ s) : (split s).1 = [] ∧ (split s).2.getD [] = s := by
  by_cases hne : s = []
  · subst hne
    exact ⟨rfl, rfl⟩
  · rw [(isCut_undelimited hne hd).split_eq]
    exact ⟨rfl, rfl⟩

/-- R110 (d): splitting goes on from the remainder of a stream's first part. -/
theorem split_append (u chunk : Bytes) :
    split (u ++ chunk) =
      ((split u).1 ++ (split ((split u).2.getD [] ++ chunk)).1, (split ((split u).2.getD [] ++ chunk)).2) :=
  splitOfFramesAndChunks.2.2.2 u chunk

/-! ### The commands -/

/-- R109: FRAME.SPLIT within MAX_IN. -/
theorem exec_frameSplit {s : State} (hf : Fits s.cfg s.req.inp.length) :
    exec .frameSplit s = .next (s.succeed
      { Responses.cleared with frames := (split s.req.inp).1, remOut := (split s.req.inp).2.getD [] }
      (split s.req.inp).2.isSome) := by
  refine exec_ok hf ?_
  rcases hs : split s.req.inp with ⟨frames, _ | r⟩ <;> simp [commandBody, frameSplitBody, hs, Responses.cleared]

/-- R190: STREAM.FEED within MAX_IN. -/
theorem exec_streamFeed {s : State} (hf : Fits s.cfg (s.req.remIn.length + s.req.inp.length)) :
    exec .streamFeed s = .next (s.succeed
      { Responses.cleared with
        results := (split s.feedInput).1.map (entryOf s.cfg), remOut := (split s.feedInput).2.getD [] }
      (split s.feedInput).2.isSome) := by
  refine exec_ok hf ?_
  have hin : s.clearResponses.feedInput = s.feedInput := rfl
  rcases hs : split s.feedInput with ⟨frames, _ | r⟩ <;>
    simp [commandBody, streamFeedBody, hin, hs, Responses.cleared]

/-- R28, R190: the whole state left by STREAM.FEED, by the cut of the bytes fed. -/
theorem exec_streamFeed_of_split {s : State} {frames : List Bytes} {rem : Option Bytes}
    (hf : Fits s.cfg (s.req.remIn.length + s.req.inp.length)) (hs : split (s.req.remIn ++ s.req.inp) = (frames, rem)) :
    exec .streamFeed s = .next
      { s with
        status := if rem = none then 0x20#32 else 0x30#32
        resp := { Responses.cleared with results := frames.map (entryOf s.cfg), remOut := rem.getD [] } } := by
  rw [exec_streamFeed hf, State.feedInput, hs]
  cases rem with
  | none => rw [Option.isSome_none, State.succeed_false, if_pos rfl]
  | some r => rw [Option.isSome_some, State.succeed_true, if_neg (Option.some_ne_none r)]

/-- R194: the entry of a candidate frame is what MSG.PARSE of that frame completes with and returns. -/
theorem exec_msgParse_entryOf {s : State} {f : Bytes} (hf : Fits s.cfg f.length) :
    ∃ u, exec .msgParse (s.loadIn f) = .next u ∧
      entryOf s.cfg f =
        { code := codeOf u.status, dev := u.resp.resDev, pkt := u.resp.resPkt, payload := u.resp.out } := by
  obtain ⟨m, hp, he⟩ | ⟨e, -, hp, he⟩ := entryOf_cases s.cfg f
  · refine ⟨_, exec_msgParse_ok (s := s.loadIn f) hf hp, ?_⟩
    have hcode : codeOf 0x20#32 = 0#4 := by decide
    rw [he, hcode]
  · refine ⟨_, exec_msgParse_error (s := s.loadIn f) hf hp rfl, ?_⟩
    rw [he, codeOf_statusWord]
    rfl

/-! ### Receiving a stream in chunks -/

/-- R80, R192: STREAM.FEED of a chunk and COPY, where MAX_IN admits it: the entries are those of the candidate frames of
the remainder carried and the chunk, and REM_IN holds what remains of both. -/
theorem receive_chunk {s : State} {chunk : Bytes} (hf : Fits s.cfg (s.req.remIn.length + chunk.length)) :
    ∃ t, exec .streamFeed (s.loadIn chunk) = .next t ∧ t.copyRem.cfg = s.cfg ∧
      t.resp.results = (split (s.req.remIn ++ chunk)).1.map (entryOf s.cfg) ∧
      t.copyRem.req.remIn = (split (s.req.remIn ++ chunk)).2.getD [] := by
  refine ⟨_, exec_streamFeed (s := s.loadIn chunk) hf, rfl, rfl, ?_⟩
  have hin : (s.loadIn chunk).feedInput = s.req.remIn ++ chunk := rfl
  rw [hin]
  cases (split (s.req.remIn ++ chunk)).2 <;> simp

/-- R192: the receive of a first chunk, and then of the others from the state that COPY leaves. -/
theorem feedAll_cons {s t u : State} {chunk : Bytes} {chunks : List Bytes} {entries : List ResultEntry}
    (h : exec .streamFeed (s.loadIn chunk) = .next t) (hrest : feedAll t.copyRem chunks = some (entries, u)) :
    feedAll s (chunk :: chunks) = some (t.resp.results ++ entries, u) := by
  simp only [feedAll, h, hrest]

/-- R193 from any state that carries a remainder: the chunks' entries and last remainder are those of the split of the
whole stream. -/
theorem feedAll_eq_split (chunks : List Bytes) (s : State) (hd : Config.delim ∉ s.req.remIn)
    (hf : Fits s.cfg (s.req.remIn.length + chunks.flatten.length)) :
    ∃ u, feedAll s chunks = some ((split (s.req.remIn ++ chunks.flatten)).1.map (entryOf s.cfg), u) ∧
      u.req.remIn = (split (s.req.remIn ++ chunks.flatten)).2.getD [] := by
  induction chunks generalizing s with
  | nil =>
    obtain ⟨hframes, hrem⟩ := split_undelimited_eq hd
    rw [List.flatten_nil, List.append_nil, hframes, hrem]
    exact ⟨s, rfl, rfl⟩
  | cons chunk chunks ih =>
    rw [List.flatten_cons, List.length_append] at hf
    obtain ⟨t, hexec, hcfg, hresults, hrem⟩ := receive_chunk (s := s) (chunk := chunk) (hf.mono (by omega))
    have hd' : Config.delim ∉ t.copyRem.req.remIn := hrem ▸ (split_undelimited _).2
    have hlen : t.copyRem.req.remIn.length ≤ s.req.remIn.length + chunk.length :=
      hrem ▸ List.length_append ▸ (split_lengths_le _).2
    obtain ⟨u, hfeed, hlast⟩ := ih t.copyRem hd' (hcfg ▸ hf.mono (by omega))
    rw [hrem, hcfg] at hfeed
    rw [hrem] at hlast
    rw [List.flatten_cons, ← List.append_assoc, split_append, List.map_append, ← hresults]
    exact ⟨u, feedAll_cons hexec hfeed, hlast⟩

/-! ### The obligations of 43_stream.md -/

/-- Settles O52: both are the split of the whole stream, which goes on chunk by chunk from the remainder carried. -/
theorem chunkingDoesNotMatter : Obligations.ChunkingDoesNotMatter := by
  intro s chunks hrem hf
  have hfit : Fits s.cfg (s.req.remIn.length + chunks.flatten.length) := by simpa [hrem] using hf
  obtain ⟨u, hfeed, hlast⟩ := feedAll_eq_split chunks s (by simp [hrem]) hfit
  exact ⟨_, u, _, hfeed, exec_streamFeed (s := s.loadIn chunks.flatten) hfit, rfl, hlast.symm⟩

set_option maxRecDepth 3000 in
/-- Settles O50: STREAM.FEED completes with the cut of the bytes fed, and each corner case is a cut of its own. -/
theorem streamFeedParsesEveryFrame : Obligations.StreamFeedParsesEveryFrame := by
  refine ⟨by decide, fun s frames rem hf hs => exec_streamFeed_of_split hf hs, fun s he => exec_eq_capacityExceeded he,
    fun s hf hrem hin => ?_, fun c => ?_, fun s hf hne hd => ?_, fun s hc hf hrem hin => ?_⟩
  · have hs : split (s.req.remIn ++ s.req.inp) = ([], none) := by rw [hrem, hin]; rfl
    exact exec_streamFeed_of_split (by rwa [hrem, hin]) hs
  · exact (parse_eq_checkDecoded (d := []) rfl).trans (checkDecoded_short c (by decide))
  · exact exec_streamFeed_of_split hf (isCut_undelimited hne hd).split_eq
  · have hs : split (s.req.remIn ++ s.req.inp) =
        ([[0x02#8, 0x01#8, 0x04#8, 0x6D#8]], some [0x7D#8, 0x20#8]) := by
      rw [hrem, hin]
      decide
    have hp : parse s.cfg [0x02#8, 0x01#8, 0x04#8, 0x6D#8] = .ok { dev := 0x01#8, pkt := 0x02#8, payload := [] } := by
      rw [hc.parse_eq]
      decide
    rw [exec_streamFeed_of_split (by rwa [hrem, hin]) hs, List.map_singleton, entryOf, hp]
    rfl

/-- Settles O51: both commands split the same bytes, and no candidate frame is longer than those. -/
theorem entriesAreWhatMsgParseReturns : Obligations.EntriesAreWhatMsgParseReturns := by
  intro s hf
  have hfit : Fits s.cfg (s.req.remIn ++ s.req.inp).length := by rwa [List.length_append]
  refine ⟨_, _, exec_streamFeed hf, exec_frameSplit (s := s.loadIn (s.req.remIn ++ s.req.inp)) hfit, rfl, rfl,
    List.length_map _, fun k f hk => ?_⟩
  have hmem : f ∈ (split (s.req.remIn ++ s.req.inp)).1 := List.mem_of_getElem? hk
  obtain ⟨u, hexec, hentry⟩ := exec_msgParse_entryOf (hfit.mono ((split_lengths_le _).1 f hmem))
  refine ⟨u, hexec, ?_⟩
  rw [← hentry]
  exact (List.getElem?_map ..).trans (congrArg _ hk)

end Sys2Proof.Machine
end

section
/-! PROOF. Completion and failure (60_exceptions.md): no run stops, a failed command leaves its code and nothing else,
and the codes that each command and each RESULTS entry can carry. -/

namespace Sys2Proof.Machine

/-! ### Failed commands -/

/-- R28, R205: the STATUS of a failed command holds VALID and its code alone. -/
theorem statusWord_false (c : Code) : statusWord c false = 0x20#32 ||| c.num.setWidth 32 := by
  cases c <;> decide

/-- R205: the whole state a failed command leaves, by the code its STATUS shows. -/
theorem State.fail_eq (s : State) (c : Code) :
    s.fail c = { s with
      status := 0x20#32 ||| (codeOf (s.fail c).status).setWidth 32
      resp := Responses.cleared } := by
  rw [State.fail_status, codeOf_statusWord, ← statusWord_false, State.fail]

/-- R205: a command that completes with a code other than OK has failed, in the capacity check or in its own. -/
theorem exec_not_ok {i : Instr} {s t : State} (h : exec i s = .next t) (hcode : codeOf t.status ≠ 0#4) :
    ∃ c, t = s.fail c := by
  obtain ⟨-, rfl⟩ | ⟨-, c, -, rfl⟩ | ⟨-, r, v, -, rfl⟩ := exec_cases h
  · exact ⟨_, rfl⟩
  · exact ⟨c, rfl⟩
  · exact absurd (codeOf_statusWord .ok v) hcode

/-- R205: so has a word, legal or not, that completes with a code other than OK. -/
theorem issue_not_ok {w : Word} {s t : State} (h : issue w s = .next t) (hcode : codeOf t.status ≠ 0#4) :
    ∃ c, t = (s.storeCmd w).fail c := by
  obtain ⟨i, -, hi⟩ | ⟨-, rfl⟩ := issue_cases h
  · exact exec_not_ok hi hcode
  · exact ⟨_, rfl⟩

/-! ### The codes of a command -/

/-- R201, R202: the codes a decoded command can complete with: OK, those its own checks raise, and CapacityExceeded. -/
def completionCodes : Instr → List Code
  | .frameEnc | .frameSplit | .crc8 | .fltEnc | .streamFeed => [.ok, .capacityExceeded]
  | .frameDec => [.ok, .framingError, .capacityExceeded]
  | .msgBuild _ _ => [.ok, .payloadTooLarge, .capacityExceeded]
  | .msgParse => [.ok, .framingError, .tooShort, .lengthMismatch, .checksumMismatch, .capacityExceeded]
  | .fltDec => [.ok, .invalidLength, .capacityExceeded]

theorem ok_mem_completionCodes (i : Instr) : Code.ok ∈ completionCodes i := by
  cases i <;> simp [completionCodes]

theorem capacityExceeded_mem_completionCodes (i : Instr) : Code.capacityExceeded ∈ completionCodes i := by
  cases i <;> simp [completionCodes]

theorem commandBody_error_mem {i : Instr} {s : State} {c : Code} (h : commandBody i s = .error c) :
    c ∈ completionCodes i := by
  obtain ⟨rfl, rfl⟩ | ⟨⟨dev, pkt, rfl⟩, rfl⟩ | ⟨rfl, hc⟩ | ⟨rfl, rfl⟩ := commandBody_error h
  · simp [completionCodes]
  · simp [completionCodes]
  · have hsub : [Code.framingError, .tooShort, .lengthMismatch, .checksumMismatch] ⊆ completionCodes .msgParse := by
      decide
    exact hsub hc
  · simp [completionCodes]

theorem exec_code_mem {i : Instr} {s t : State} (h : exec i s = .next t) :
    codeOf t.status ∈ (completionCodes i).map Code.num := by
  obtain ⟨-, rfl⟩ | ⟨-, c, hb, rfl⟩ | ⟨-, r, v, -, rfl⟩ := exec_cases h
  · rw [State.fail_status, codeOf_statusWord]
    exact List.mem_map_of_mem (capacityExceeded_mem_completionCodes i)
  · rw [State.fail_status, codeOf_statusWord]
    exact List.mem_map_of_mem (commandBody_error_mem hb)
  · rw [State.succeed_status, codeOf_statusWord]
    exact List.mem_map_of_mem (ok_mem_completionCodes i)

/-! ### The codes of an entry -/

theorem mem_entryCodes : ∀ code : BitVec 4, code.toNat ≤ 4 → code ∈ [0#4, 1#4, 2#4, 3#4, 4#4] := by
  decide

/-- Five candidate frames, one for each code of an entry, in the codes' order: a message, an escape byte with nothing
after it, an empty frame, a wrong length byte and a wrong checksum. -/
def frameOfEachCode : List Bytes :=
  [[0x02#8, 0x01#8, 0x04#8, 0x6D#8], [0x7D#8], [], [0x02#8, 0x01#8, 0x05#8, 0x6D#8],
    [0x02#8, 0x01#8, 0x04#8, 0x6C#8]]

/-- A reset codec with those frames in IN, each with its delimiter. -/
def streamOfEachCode : State := State.reset.loadIn (frameOfEachCode.flatMap (· ++ [Config.delim]))

set_option maxRecDepth 3000 in
theorem entryOf_frameOfEachCode :
    (frameOfEachCode.map (entryOf Config.reference)).map ResultEntry.code = [0#4, 1#4, 2#4, 3#4, 4#4] := by
  decide

/-- R202: one STREAM.FEED whose entries carry every code an entry can. -/
theorem exec_streamOfEachCode :
    ∃ t, exec .streamFeed streamOfEachCode = .next t ∧
      t.resp.results.map ResultEntry.code = [0#4, 1#4, 2#4, 3#4, 4#4] := by
  have hsplit : split (streamOfEachCode.req.remIn ++ streamOfEachCode.req.inp) = (frameOfEachCode, none) := by decide
  exact ⟨_, exec_streamFeed_of_split (fun _ h => nomatch h) hsplit, entryOf_frameOfEachCode⟩

/-! ### The obligations of 60_exceptions.md -/

/-- Settles O5, by induction on the number of steps: each step answers a next state and keeps the invariant. -/
theorem everyRunIsSafe : Obligations.EveryRunIsSafe := by
  intro n s hinv
  induction n generalizing s with
  | zero => exact ⟨s, rfl, hinv⟩
  | succ n ih =>
    obtain ⟨t, hstep⟩ := step_next s
    obtain ⟨u, hrun, hu⟩ := ih t (stepKeepsTheInvariant s t hinv hstep)
    exact ⟨u, (core_run_succ hstep n).trans hrun, hu⟩

/-- Settles O4: every command completes, with VALID = 1 in the STATUS it writes, and every host action is performed. -/
theorem nothingStopsTheCodec : Obligations.NothingStopsTheCodec := by
  refine ⟨fun i s => ?_, step_next⟩
  obtain ⟨t, h⟩ := exec_next i s
  obtain ⟨-, hvalid, -⟩ := statusFieldsAfterACommand i s t h
  exact ⟨t, h, hvalid⟩

/-- Settles O18: the write of a word changes no register that a command reads. -/
theorem earlierCommandsNeverMatter : Obligations.EarlierCommandsNeverMatter := by
  intro w rest s t htodo hstep j u v hu hv
  rw [step_cons htodo] at hstep
  have hframe := issue_frame hstep
  have hcfg : t.cfg = s.cfg := by rw [hframe]; rfl
  have hreq : t.req = { s.req with cmd := w } := by rw [hframe]; rfl
  exact responsesDependOnlyOnRequests j t s v u hcfg (fun _ => by rw [hreq]) (fun _ => by rw [hreq])
    (fun _ => by rw [hreq]) hv hu

/-- Settles O20: the state left is that of a failed command, whose code STATUS shows. -/
theorem failedCommandsLeaveNothing : Obligations.FailedCommandsLeaveNothing := by
  intro w rest s t htodo hstep hcode
  rw [step_cons htodo] at hstep
  obtain ⟨c, rfl⟩ := issue_not_ok hstep hcode
  exact State.fail_eq _ c

/-- Settles O21: each clause is a command's list of completion codes, and one stream shows every code of an entry. -/
theorem codesEachCommandRaises : Obligations.CodesEachCommandRaises := by
  refine ⟨fun i s t h => ?_, fun code hcode => ?_⟩
  · have hmem := exec_code_mem h
    refine ⟨fun e he => mem_entryCodes _ ((exec_inv h).entry_code e he), fun hi => ?_, ?_, ?_, ?_, ?_⟩
    · have hlist : ∀ j ∈ [Instr.frameEnc, .frameSplit, .crc8, .fltEnc, .streamFeed],
          (completionCodes j).map Code.num = [0#4, 8#4] := by decide
      exact hlist i hi ▸ hmem
    · rintro rfl; exact hmem
    · rintro dev pkt rfl; exact hmem
    · rintro rfl; exact hmem
    · rintro rfl; exact hmem
  · obtain ⟨t, h, hresults⟩ := exec_streamOfEachCode
    exact ⟨_, t, h, List.mem_map.1 (hresults ▸ hcode)⟩

set_option maxRecDepth 3000 in
/-- Settles O45: the code that MSG.PARSE leaves is 0 where the input fits and parses, and a failure's elsewhere. -/
theorem successIsToldByTheCodeAlone : Obligations.SuccessIsToldByTheCodeAlone := by
  refine ⟨fun s hc hf hin => ?_, fun s t h => ?_⟩
  · have hp : parse s.cfg s.req.inp = .ok { dev := 0x00#8, pkt := 0x00#8, payload := [] } := by
      rw [hc.parse_eq, hin]
      decide
    exact exec_msgParse_ok (by rwa [hin]) hp
  · rcases fits_or_exceeds s.cfg s.req.inp.length with hf | he
    · cases hp : parse s.cfg s.req.inp with
      | ok m =>
        rw [exec_msgParse_ok hf hp] at h
        cases h
        have hok : codeOf 0x20#32 = 0#4 := by decide
        exact iff_of_true hok ⟨hf, m, rfl⟩
      | error e =>
        rw [exec_msgParse_error hf hp rfl] at h
        cases h
        have hne : e ≠ .ok := by
          rintro rfl
          simpa using parse_error_ne_ok hp
        exact iff_of_false (by simpa using hne) (by simp)
    · rw [exec_eq_capacityExceeded he] at h
      cases h
      have hne : codeOf 0x28#32 ≠ 0#4 := by decide
      exact iff_of_false hne fun ⟨hf, _⟩ => hf.not_exceeds he

end Sys2Proof.Machine
end

section
/-! PROOF. Reset and hazards (70_reset_and_hazards.md): the idle codec. -/

namespace Sys2Proof.Machine

/-! ### The obligations of 70_reset_and_hazards.md -/

/-- Settles O7: the step of a codec with nothing pending performs no host action. -/
theorem idleStepChangesNothing : Obligations.IdleStepChangesNothing := fun _ => step_nil

end Sys2Proof.Machine
end
